-- ==== Sys2Proof/Word.lean ====
section
/-! DEFINITION. The widths of the machine (00_scope.md R6, R10): a byte, a 16-bit word, a nibble and a 12-bit address field. All values are unsigned. -/

namespace Sys2Proof

/-- A byte of memory, a general register, a timer: 8 bits (R6). -/
abbrev Byte := BitVec 8

/-- An instruction word, PC, I, a stack entry: 16 bits (R6). -/
abbrev Word := BitVec 16

/-- A register index, a row count, a key: 4 bits (R9, R72). -/
abbrev Nibble := BitVec 4

/-- The address field nnn: 12 bits (R6, R72). -/
abbrev Addr := BitVec 12

end Sys2Proof
end

