-- ==== Sys2Proof/Config.lean ====
section
/-! DEFINITION. What is fixed for one machine (the named parameters of 00_scope.md R7), the inputs of a tick (10_state.md R40), and the free values (00_scope.md R8). -/

namespace Sys2Proof

/-- The parameter ZERO_GROUP_MASK (R7, 30_encoding.md R77): the mask CLS and RET are matched with. -/
inductive ZeroGroupMask where
  /-- 0xF0FF: bits 11:8 are ignored (the default). -/
  | lowByte
  /-- 0xFFFF: only the exact words 0x00E0 and 0x00EE. -/
  | fullWord
deriving DecidableEq, Repr

/-- The mask as a word. -/
def ZeroGroupMask.toWord : ZeroGroupMask → Word
  | .lowByte => 0xF0FF
  | .fullWord => 0xFFFF

/-- The parameters that a rule of the core reads (R7). A machine keeps one value of this for the whole of a run;
no step changes it. -/
structure Config where
  /-- FONT: the 80 bytes at 0x000..0x04F after initialisation (70_reset_and_hazards.md R312). -/
  font : Vector Byte 80
  /-- FX1E_SETS_VF: whether Fx1E writes VF (45_index_memory.md R221). -/
  fx1eSetsVF : Bool
  /-- ZERO_GROUP_MASK (30_encoding.md R77). -/
  zeroGroupMask : ZeroGroupMask
  /-- LOW_GUARD: whether writes and fetches below 0x200 fault (20_memory.md R59). -/
  lowGuard : Bool
deriving DecidableEq, Repr

/-- The default FONT: the table of 70_reset_and_hazards.md R312, digit 0 first.
PRESUMED: the spec marks these bytes as general knowledge, not its source's (log 6). -/
def Config.defaultFont : Vector Byte 80 :=
  ⟨#[0xF0, 0x90, 0x90, 0x90, 0xF0,  0x20, 0x60, 0x20, 0x20, 0x70,
     0xF0, 0x10, 0xF0, 0x80, 0xF0,  0xF0, 0x10, 0xF0, 0x10, 0xF0,
     0x90, 0x90, 0xF0, 0x10, 0x10,  0xF0, 0x80, 0xF0, 0x10, 0xF0,
     0xF0, 0x80, 0xF0, 0x90, 0xF0,  0xF0, 0x10, 0x20, 0x40, 0x40,
     0xF0, 0x90, 0xF0, 0x90, 0xF0,  0xF0, 0x90, 0xF0, 0x10, 0xF0,
     0xF0, 0x90, 0xF0, 0x90, 0x90,  0xE0, 0x90, 0xE0, 0x90, 0xE0,
     0xF0, 0x80, 0x80, 0x80, 0xF0,  0xE0, 0x90, 0x90, 0x90, 0xE0,
     0xF0, 0x80, 0xF0, 0x80, 0xF0,  0xF0, 0x80, 0xF0, 0x80, 0x80], rfl⟩

/-- Every parameter at the default of R7. -/
def Config.default : Config where
  font := Config.defaultFont
  fx1eSetsVF := false
  zeroGroupMask := .lowByte
  lowGuard := false

/-- TIMER_RATE_HZ (R7): timing only, no rule reads it (70_reset_and_hazards.md R330; log 10). -/
def Config.timerRateHz : Nat := 60

/-- CYCLE_RATE_HZ (R7): OPEN in the spec, timing only, no rule reads it (R330; log 10). -/
opaque Config.cycleRateHz : Nat

/-- The inputs of one instruction tick (10_state.md R40): each a free draw. -/
structure TickInput where
  /-- keys_in: the pressed-state snapshot of the sixteen keys. -/
  keysIn : BitVec 16
  /-- keydown_in: the key-down events since the previous instruction tick, earliest first. -/
  keydownIn : List Nibble
  /-- quit_in: the quit signal. -/
  quitIn : Bool
  /-- rand_in: the byte random_byte() returns if this tick executes Cxkk. -/
  randIn : Byte
deriving DecidableEq, Repr, Inhabited

/-- One tick of the schedule: an instruction tick with its inputs, or a timer tick (60_exceptions.md R286). -/
inductive Tick where
  | instr (inp : TickInput)
  | timer
deriving DecidableEq, Repr, Inhabited

/-- The free environment (R8, R286): the tick that comes when State's list of ticks is used up, the n-th such tick, wherever
weak fairness does not fix its kind (Machine/Schedule.lean).
DESIGN CHOICE: nothing else constrains it (log 1). -/
opaque Config.freeTick : Nat → Tick

/-- The free environment: how many unfixed ticks stand before the k-th tick whose kind weak fairness fixes. Nothing
constrains it (log 1). -/
opaque Config.freeGap : Nat → Nat

/-- The free environment: the inputs of the n-th tick where weak fairness fixes it to be an instruction tick. Nothing
constrains them (log 1). -/
opaque Config.freeInput : Nat → TickInput

end Sys2Proof
end

