-- ==== Sys2Proof/Syntax.lean ====
section
/-! DEFINITION. The 34 instructions (00_scope.md R3, 30_encoding.md R75, R76), one constructor for each row of the opcode table, in the table's order. -/

namespace Sys2Proof

/-- An instruction with its decoded fields (30_encoding.md R72). `x` and `y` are register indexes, `kk` an
unsigned byte, `nnn` an unsigned 12-bit address, `n` a row count. `ign` and the `y` of SHR and SHL are the fields that the
instruction ignores (R74): they are kept so that a term and its word determine each other, and no meaning reads them
(log 9). -/
inductive Instr where
  /-- 00E0 CLS, R120; `ign` is bits 11:8. -/
  | cls (ign : Nibble)
  /-- 00EE RET, R140; `ign` is bits 11:8. -/
  | ret (ign : Nibble)
  /-- 1nnn JP addr, R141. -/
  | jp (nnn : Addr)
  /-- 2nnn CALL addr, R142. -/
  | call (nnn : Addr)
  /-- 3xkk SE Vx, byte, R160. -/
  | seImm (x : Nibble) (kk : Byte)
  /-- 4xkk SNE Vx, byte, R161. -/
  | sneImm (x : Nibble) (kk : Byte)
  /-- 5xy0 SE Vx, Vy, R162. -/
  | seReg (x y : Nibble)
  /-- 6xkk LD Vx, byte, R180. -/
  | ldImm (x : Nibble) (kk : Byte)
  /-- 7xkk ADD Vx, byte, R181. -/
  | addImm (x : Nibble) (kk : Byte)
  /-- 8xy0 LD Vx, Vy, R182. -/
  | ldReg (x y : Nibble)
  /-- 8xy1 OR Vx, Vy, R183. -/
  | orReg (x y : Nibble)
  /-- 8xy2 AND Vx, Vy, R184. -/
  | andReg (x y : Nibble)
  /-- 8xy3 XOR Vx, Vy, R185. -/
  | xorReg (x y : Nibble)
  /-- 8xy4 ADD Vx, Vy, R186. -/
  | addReg (x y : Nibble)
  /-- 8xy5 SUB Vx, Vy, R187. -/
  | subReg (x y : Nibble)
  /-- 8xy6 SHR Vx, R188; `y` is ignored. -/
  | shr (x y : Nibble)
  /-- 8xy7 SUBN Vx, Vy, R189. -/
  | subnReg (x y : Nibble)
  /-- 8xyE SHL Vx, R190; `y` is ignored. -/
  | shl (x y : Nibble)
  /-- 9xy0 SNE Vx, Vy, R163. -/
  | sneReg (x y : Nibble)
  /-- Annn LD I, addr, R220. -/
  | ldI (nnn : Addr)
  /-- Bnnn JP V0, addr, R143. -/
  | jpV0 (nnn : Addr)
  /-- Cxkk RND Vx, byte, R191. -/
  | rnd (x : Nibble) (kk : Byte)
  /-- Dxyn DRW Vx, Vy, nibble, R121 to R125. -/
  | drw (x y n : Nibble)
  /-- Ex9E SKP Vx, R168. -/
  | skp (x : Nibble)
  /-- ExA1 SKNP Vx, R169. -/
  | sknp (x : Nibble)
  /-- Fx07 LD Vx, DT, R250. -/
  | ldVxDt (x : Nibble)
  /-- Fx0A LD Vx, K, R251. -/
  | ldVxK (x : Nibble)
  /-- Fx15 LD DT, Vx, R252. -/
  | ldDtVx (x : Nibble)
  /-- Fx18 LD ST, Vx, R253. -/
  | ldStVx (x : Nibble)
  /-- Fx1E ADD I, Vx, R221. -/
  | addIVx (x : Nibble)
  /-- Fx29 LD F, Vx, R222. -/
  | ldFVx (x : Nibble)
  /-- Fx33 LD B, Vx, R223. -/
  | ldBVx (x : Nibble)
  /-- Fx55 LD [I], Vx, R224. -/
  | ldMemVx (x : Nibble)
  /-- Fx65 LD Vx, [I], R225. -/
  | ldVxMem (x : Nibble)
deriving DecidableEq, Repr

end Sys2Proof
end

