-- ==== Sys2Proof/WellFormed.lean ====
section
/-! DEFINITION. Which instruction terms have an encoding: every field has the width of its type, and the ignored bits 11:8 of CLS and RET must be zero under ZERO_GROUP_MASK = 0xFFFF (30_encoding.md R77). -/

namespace Sys2Proof

/-- Whether the ignored bits 11:8 of a 0-group word may hold `ign` under the mask (R77). -/
def ZeroGroupMask.allows (m : ZeroGroupMask) (ign : Nibble) : Bool :=
  match m with
  | .lowByte => true
  | .fullWord => ign == 0

/-- An instruction that some word encodes under the mask `m`. -/
def Instr.wellFormed (m : ZeroGroupMask) : Instr → Bool
  | .cls ign => m.allows ign
  | .ret ign => m.allows ign
  | .jp _ => true
  | .call _ => true
  | .seImm _ _ => true
  | .sneImm _ _ => true
  | .seReg _ _ => true
  | .ldImm _ _ => true
  | .addImm _ _ => true
  | .ldReg _ _ => true
  | .orReg _ _ => true
  | .andReg _ _ => true
  | .xorReg _ _ => true
  | .addReg _ _ => true
  | .subReg _ _ => true
  | .shr _ _ => true
  | .subnReg _ _ => true
  | .shl _ _ => true
  | .sneReg _ _ => true
  | .ldI _ => true
  | .jpV0 _ => true
  | .rnd _ _ => true
  | .drw _ _ _ => true
  | .skp _ => true
  | .sknp _ => true
  | .ldVxDt _ => true
  | .ldVxK _ => true
  | .ldDtVx _ => true
  | .ldStVx _ => true
  | .addIVx _ => true
  | .ldFVx _ => true
  | .ldBVx _ => true
  | .ldMemVx _ => true
  | .ldVxMem _ => true

end Sys2Proof
end

