-- ==== Sys2Proof/Decode.lean ====
section
/-! DEFINITION. The decoder (30_encoding.md R70 to R80), total on any bytes, and after it the encoder and the match and mask table of R76. -/

namespace Sys2Proof

/-! ### Words and bytes -/

/-- The word of two consecutive bytes, most-significant byte first (20_memory.md R51, 40_cycle.md R100). -/
def wordOfBytes (hi lo : Byte) : Word := hi ++ lo

/-- The byte at the lower address: bits 15:8. -/
def hiByte (w : Word) : Byte := w.extractLsb' 8 8

/-- The byte at the higher address: bits 7:0. -/
def loByte (w : Word) : Byte := w.extractLsb' 0 8

/-! ### Field extraction (R72) -/

/-- The group nibble, bits 15:12 (R71). -/
def fieldG (op : Word) : Nibble := op.extractLsb' 12 4

/-- x = (op & 0x0F00) >> 8. -/
def fieldX (op : Word) : Nibble := op.extractLsb' 8 4

/-- y = (op & 0x00F0) >> 4. -/
def fieldY (op : Word) : Nibble := op.extractLsb' 4 4

/-- n = op & 0x000F. -/
def fieldN (op : Word) : Nibble := op.extractLsb' 0 4

/-- kk = op & 0x00FF. -/
def fieldKK (op : Word) : Byte := op.extractLsb' 0 8

/-- nnn = op & 0x0FFF. -/
def fieldNNN (op : Word) : Addr := op.extractLsb' 0 12

/-! ### The decoder (R75) -/

/-- Group 0: CLS and RET, matched under ZERO_GROUP_MASK (R77). -/
def decodeZero (m : ZeroGroupMask) (op : Word) : Option Instr :=
  if op &&& m.toWord = 0x00E0 then some (.cls (fieldX op))
  else if op &&& m.toWord = 0x00EE then some (.ret (fieldX op))
  else none

/-- Group 8: the function nibble selects (R75). -/
def decodeEight (x y n : Nibble) : Option Instr :=
  if n = 0x0 then some (.ldReg x y)
  else if n = 0x1 then some (.orReg x y)
  else if n = 0x2 then some (.andReg x y)
  else if n = 0x3 then some (.xorReg x y)
  else if n = 0x4 then some (.addReg x y)
  else if n = 0x5 then some (.subReg x y)
  else if n = 0x6 then some (.shr x y)
  else if n = 0x7 then some (.subnReg x y)
  else if n = 0xE then some (.shl x y)
  else none

/-- Group E: the function byte selects (R75). -/
def decodeE (x : Nibble) (kk : Byte) : Option Instr :=
  if kk = 0x9E then some (.skp x)
  else if kk = 0xA1 then some (.sknp x)
  else none

/-- Group F: the function byte selects (R75). -/
def decodeF (x : Nibble) (kk : Byte) : Option Instr :=
  if kk = 0x07 then some (.ldVxDt x)
  else if kk = 0x0A then some (.ldVxK x)
  else if kk = 0x15 then some (.ldDtVx x)
  else if kk = 0x18 then some (.ldStVx x)
  else if kk = 0x1E then some (.addIVx x)
  else if kk = 0x29 then some (.ldFVx x)
  else if kk = 0x33 then some (.ldBVx x)
  else if kk = 0x55 then some (.ldMemVx x)
  else if kk = 0x65 then some (.ldVxMem x)
  else none

/-- `Decode(op)` of R75: the instruction, or `none` for an Unknown word (R79). -/
def decodeWord (m : ZeroGroupMask) (op : Word) : Option Instr :=
  let g := fieldG op
  let x := fieldX op
  let y := fieldY op
  let n := fieldN op
  let kk := fieldKK op
  let nnn := fieldNNN op
  if g = 0x0 then decodeZero m op
  else if g = 0x1 then some (.jp nnn)
  else if g = 0x2 then some (.call nnn)
  else if g = 0x3 then some (.seImm x kk)
  else if g = 0x4 then some (.sneImm x kk)
  else if g = 0x5 then (if n = 0 then some (.seReg x y) else none)
  else if g = 0x6 then some (.ldImm x kk)
  else if g = 0x7 then some (.addImm x kk)
  else if g = 0x8 then decodeEight x y n
  else if g = 0x9 then (if n = 0 then some (.sneReg x y) else none)
  else if g = 0xA then some (.ldI nnn)
  else if g = 0xB then some (.jpV0 nnn)
  else if g = 0xC then some (.rnd x kk)
  else if g = 0xD then some (.drw x y n)
  else if g = 0xE then decodeE x kk
  else decodeF x kk

/-- What the decoder answers on a list of bytes. -/
inductive DecodeResult where
  /-- An instruction and the bytes after it. -/
  | instr (i : Instr) (rest : List Byte)
  /-- An Unknown word (R79, R80) and the bytes after it. -/
  | unknown (op : Word) (rest : List Byte)
  /-- Fewer than the two bytes of an instruction word (R70). -/
  | truncated
deriving DecidableEq, Repr

/-- Decode the instruction at the head of a list of bytes (R70, R102). -/
def decode (m : ZeroGroupMask) : List Byte → DecodeResult
  | hi :: lo :: rest =>
    match decodeWord m (wordOfBytes hi lo) with
    | some i => .instr i rest
    | none => .unknown (wordOfBytes hi lo) rest
  | _ => .truncated

/-! ### The encoder (R71, R76, R84) -/

/-- The word of an instruction: the layouts of R71 with the group and function values of R76. -/
def encode : Instr → Word
  | .cls ign => 0x0#4 ++ ign ++ 0xE0#8
  | .ret ign => 0x0#4 ++ ign ++ 0xEE#8
  | .jp nnn => 0x1#4 ++ nnn
  | .call nnn => 0x2#4 ++ nnn
  | .seImm x kk => 0x3#4 ++ x ++ kk
  | .sneImm x kk => 0x4#4 ++ x ++ kk
  | .seReg x y => 0x5#4 ++ x ++ y ++ 0x0#4
  | .ldImm x kk => 0x6#4 ++ x ++ kk
  | .addImm x kk => 0x7#4 ++ x ++ kk
  | .ldReg x y => 0x8#4 ++ x ++ y ++ 0x0#4
  | .orReg x y => 0x8#4 ++ x ++ y ++ 0x1#4
  | .andReg x y => 0x8#4 ++ x ++ y ++ 0x2#4
  | .xorReg x y => 0x8#4 ++ x ++ y ++ 0x3#4
  | .addReg x y => 0x8#4 ++ x ++ y ++ 0x4#4
  | .subReg x y => 0x8#4 ++ x ++ y ++ 0x5#4
  | .shr x y => 0x8#4 ++ x ++ y ++ 0x6#4
  | .subnReg x y => 0x8#4 ++ x ++ y ++ 0x7#4
  | .shl x y => 0x8#4 ++ x ++ y ++ 0xE#4
  | .sneReg x y => 0x9#4 ++ x ++ y ++ 0x0#4
  | .ldI nnn => 0xA#4 ++ nnn
  | .jpV0 nnn => 0xB#4 ++ nnn
  | .rnd x kk => 0xC#4 ++ x ++ kk
  | .drw x y n => 0xD#4 ++ x ++ y ++ n
  | .skp x => 0xE#4 ++ x ++ 0x9E#8
  | .sknp x => 0xE#4 ++ x ++ 0xA1#8
  | .ldVxDt x => 0xF#4 ++ x ++ 0x07#8
  | .ldVxK x => 0xF#4 ++ x ++ 0x0A#8
  | .ldDtVx x => 0xF#4 ++ x ++ 0x15#8
  | .ldStVx x => 0xF#4 ++ x ++ 0x18#8
  | .addIVx x => 0xF#4 ++ x ++ 0x1E#8
  | .ldFVx x => 0xF#4 ++ x ++ 0x29#8
  | .ldBVx x => 0xF#4 ++ x ++ 0x33#8
  | .ldMemVx x => 0xF#4 ++ x ++ 0x55#8
  | .ldVxMem x => 0xF#4 ++ x ++ 0x65#8

/-- The two bytes of an instruction in memory order (R51). -/
def encodeBytes (i : Instr) : List Byte := [hiByte (encode i), loByte (encode i)]

/-! ### The match and mask table (R76) -/

/-- One row of the group map of R76: a word selects the row when `op & mask = pattern`. -/
structure OpcodeRow where
  pattern : Word
  mask : Word
deriving DecidableEq, Repr

/-- Whether a word selects the row (R76). -/
def OpcodeRow.selects (r : OpcodeRow) (op : Word) : Bool := op &&& r.mask == r.pattern

/-- The row of R76 that an instruction belongs to; only the 0 group depends on ZERO_GROUP_MASK. -/
def Instr.row (m : ZeroGroupMask) : Instr → OpcodeRow
  | .cls _ => ⟨0x00E0, m.toWord⟩
  | .ret _ => ⟨0x00EE, m.toWord⟩
  | .jp _ => ⟨0x1000, 0xF000⟩
  | .call _ => ⟨0x2000, 0xF000⟩
  | .seImm _ _ => ⟨0x3000, 0xF000⟩
  | .sneImm _ _ => ⟨0x4000, 0xF000⟩
  | .seReg _ _ => ⟨0x5000, 0xF00F⟩
  | .ldImm _ _ => ⟨0x6000, 0xF000⟩
  | .addImm _ _ => ⟨0x7000, 0xF000⟩
  | .ldReg _ _ => ⟨0x8000, 0xF00F⟩
  | .orReg _ _ => ⟨0x8001, 0xF00F⟩
  | .andReg _ _ => ⟨0x8002, 0xF00F⟩
  | .xorReg _ _ => ⟨0x8003, 0xF00F⟩
  | .addReg _ _ => ⟨0x8004, 0xF00F⟩
  | .subReg _ _ => ⟨0x8005, 0xF00F⟩
  | .shr _ _ => ⟨0x8006, 0xF00F⟩
  | .subnReg _ _ => ⟨0x8007, 0xF00F⟩
  | .shl _ _ => ⟨0x800E, 0xF00F⟩
  | .sneReg _ _ => ⟨0x9000, 0xF00F⟩
  | .ldI _ => ⟨0xA000, 0xF000⟩
  | .jpV0 _ => ⟨0xB000, 0xF000⟩
  | .rnd _ _ => ⟨0xC000, 0xF000⟩
  | .drw _ _ _ => ⟨0xD000, 0xF000⟩
  | .skp _ => ⟨0xE09E, 0xF0FF⟩
  | .sknp _ => ⟨0xE0A1, 0xF0FF⟩
  | .ldVxDt _ => ⟨0xF007, 0xF0FF⟩
  | .ldVxK _ => ⟨0xF00A, 0xF0FF⟩
  | .ldDtVx _ => ⟨0xF015, 0xF0FF⟩
  | .ldStVx _ => ⟨0xF018, 0xF0FF⟩
  | .addIVx _ => ⟨0xF01E, 0xF0FF⟩
  | .ldFVx _ => ⟨0xF029, 0xF0FF⟩
  | .ldBVx _ => ⟨0xF033, 0xF0FF⟩
  | .ldMemVx _ => ⟨0xF055, 0xF0FF⟩
  | .ldVxMem _ => ⟨0xF065, 0xF0FF⟩

/-- All 34 rows of R76, in the order of the opcode table. -/
def opcodeRows (m : ZeroGroupMask) : List OpcodeRow :=
  [⟨0x00E0, m.toWord⟩, ⟨0x00EE, m.toWord⟩, ⟨0x1000, 0xF000⟩, ⟨0x2000, 0xF000⟩, ⟨0x3000, 0xF000⟩,
   ⟨0x4000, 0xF000⟩, ⟨0x5000, 0xF00F⟩, ⟨0x6000, 0xF000⟩, ⟨0x7000, 0xF000⟩] ++
  [⟨0x8000, 0xF00F⟩, ⟨0x8001, 0xF00F⟩, ⟨0x8002, 0xF00F⟩, ⟨0x8003, 0xF00F⟩, ⟨0x8004, 0xF00F⟩,
   ⟨0x8005, 0xF00F⟩, ⟨0x8006, 0xF00F⟩, ⟨0x8007, 0xF00F⟩, ⟨0x800E, 0xF00F⟩] ++
  [⟨0x9000, 0xF00F⟩, ⟨0xA000, 0xF000⟩, ⟨0xB000, 0xF000⟩, ⟨0xC000, 0xF000⟩, ⟨0xD000, 0xF000⟩,
   ⟨0xE09E, 0xF0FF⟩, ⟨0xE0A1, 0xF0FF⟩] ++
  [⟨0xF007, 0xF0FF⟩, ⟨0xF00A, 0xF0FF⟩, ⟨0xF015, 0xF0FF⟩, ⟨0xF018, 0xF0FF⟩, ⟨0xF01E, 0xF0FF⟩,
   ⟨0xF029, 0xF0FF⟩, ⟨0xF033, 0xF0FF⟩, ⟨0xF055, 0xF0FF⟩, ⟨0xF065, 0xF0FF⟩]

/-! ### The host's view of the decoder -/

/-- The word that the opcode table's bits describe: the bits above `nbits` are 0, and an instruction is one word (R70). -/
def tableWord (nbits w : Nat) : Word := BitVec.ofNat 16 (w % 2 ^ nbits)

/-- The instruction the decoder reads from the bytes of that word as memory holds them, at the default
ZERO_GROUP_MASK, which is the mask of spec/opcode_table.json. -/
def decodeTableWord (nbits w : Nat) : Option Instr :=
  match decode Config.default.zeroGroupMask [hiByte (tableWord nbits w), loByte (tableWord nbits w)] with
  | .instr i _ => some i
  | .unknown _ _ => none
  | .truncated => none

end Sys2Proof
end

