-- ==== Sys2Proof/Machine/State.lean ====
section
/-! DEFINITION. The state of the core (10_state.md R20), what ends an instruction (40_cycle.md R104), the halt reasons and the diagnostic (60_exceptions.md R271, R276), and the state after initialisation (10_state.md R43). -/

namespace Sys2Proof.Machine

open Sys2Proof

/-- The kind of access that an address fault records (R271). -/
inductive AccessKind where
  | jump
  | fetch
  | data
deriving DecidableEq, Repr

/-- The reasons of `Halted` with the info each one records (60_exceptions.md R271). An address is a
non-negative integer (20_memory.md R50). -/
inductive HaltReason where
  /-- quit_in = 1 on an instruction tick; a clean quit. -/
  | userQuit
  /-- CALL with SP = 16. -/
  | stackOverflow
  /-- RET with SP = 0. -/
  | stackUnderflow
  /-- A jump target, a fetch or a data byte outside memory. -/
  | invalidAddress (kind : AccessKind) (addr : Nat)
  /-- SKP or SKNP with V[x] > 0xF. -/
  | keyIndexOutOfRange (key : Byte)
  /-- A fetch or a write below 0x200, only under LOW_GUARD. -/
  | protectedAddress (kind : AccessKind) (addr : Nat)
deriving DecidableEq, Repr

/-- The diagnostic of R276: {reason, pc, op, info, V, I, SP, stack}; the info stands in the reason (log 8). -/
structure Diag where
  reason : HaltReason
  pc : Word
  op : Option Word
  v : Vector Byte 16
  i : Word
  sp : Fin 17
  stack : Vector Word 16
deriving DecidableEq, Repr

/-- The driver state (10_state.md R35). `Halted(reason, diag)` carries its reason inside the diagnostic. -/
inductive Mode where
  | running
  | waitingForKey (x : Nibble)
  | halted (diag : Diag)
deriving DecidableEq, Repr

/-- What a handler returns (40_cycle.md R104). -/
inductive HandlerOutcome where
  | advance
  | skip
  | jump (t : Word)
  | waitForKey (x : Nibble)
  | fault (reason : HaltReason)
  | unknown
deriving DecidableEq, Repr

/-- Why a step of the model could stop without a next state: there is no such reason. Every fault that the spec
describes is a next state in mode Halted (60_exceptions.md R275), and every tick is defined in every state (40_cycle.md R112;
log 8). Nobody raises a value of this type; safe. -/
inductive Fault where
deriving DecidableEq, Repr

/-- Why the model could have no meaning for an instruction. -/
inductive Refusal where
  /-- Raised by an arm of `exec` whose instruction has no meaning yet: no arm of this model; safe. -/
  | notModelled (mnemonic : String)
deriving DecidableEq, Repr

/-- Memory: cells in rising order of address, none equal to what an unlisted address reads as. -/
abbrev Memory := List Host.Cell

/-- The display buffer, row by row (10_state.md R31): pixel (cx, cy) is entry cx of row cy. -/
abbrev Gfx := Vector (Vector Bool 64) 32

/-- The state. The first twelve fields are the record of R20, each under its name there. -/
structure State where
  /-- `mem`, R34. -/
  mem : Memory
  /-- `V`, R21. -/
  v : Vector Byte 16
  /-- `I`, R26. -/
  i : Word
  /-- `PC`, R24. -/
  pc : Word
  /-- `SP`, R27: the count of used slots. -/
  sp : Fin 17
  /-- `stack`, R28. -/
  stack : Vector Word 16
  /-- `DT`, R29. -/
  dt : Byte
  /-- `ST`, R30. -/
  st : Byte
  /-- `gfx`, R31. -/
  gfx : Gfx
  /-- `draw`, R32. -/
  draw : Bool
  /-- `keys`, R33: bit k is key k. -/
  keys : BitVec 16
  /-- `mode`, R35. -/
  mode : Mode
  /-- The parameters of 00_scope.md R7; no step changes them (log 3). -/
  cfg : Config
  /-- The model's own: rand_in of the running instruction tick (R40; log 2). -/
  rand : Byte
  /-- The model's own: the ticks still to come, as given from outside (R40, 60_exceptions.md R286; log 1). -/
  ticks : List Tick
  /-- The model's own: how many free ticks have been drawn (log 1). -/
  drawn : Nat
  /-- frame_out of the last transition (R41; log 7). -/
  frameOut : Option Gfx
  /-- fault_report_out of the last transition (R41; log 7). -/
  reportOut : Option (Word × Word)
  /-- halt_out of the last transition (R41; log 7). -/
  haltOut : Option Diag
deriving DecidableEq, Repr

/-- A blank display: every pixel 0 (R43, 41_display.md R120). -/
def Gfx.blank : Gfx := Vector.replicate 32 (Vector.replicate 64 false)

/-- The state after `Init` of an empty ROM under the default parameters (R43, 70_reset_and_hazards.md R310, R311):
the font is what unlisted addresses 0x000..0x04F read as, so memory lists nothing (log 5); the zero
values are the spec's decision D1 (log 4). -/
def State.reset : State where
  mem := []
  v := Vector.replicate 16 0
  i := 0
  pc := 0x200
  sp := 0
  stack := Vector.replicate 16 0
  dt := 0
  st := 0
  gfx := Gfx.blank
  draw := false
  keys := 0
  mode := .running
  cfg := Config.default
  rand := 0
  ticks := []
  drawn := 0
  frameOut := none
  reportOut := none
  haltOut := none

end Sys2Proof.Machine
end

