-- ==== Sys2Proof/Machine/Ops.lean ====
section
/-! DEFINITION. The named operations over memory, registers, the stack and the display, the address checks, and how an instruction ends: the one place where PC moves and where a fault is taken. -/

namespace Sys2Proof.Machine

open Sys2Proof

/-! ### Memory (20_memory.md R50 to R54, R58) -/

/-- What an address that memory does not list reads as: the contents `Init` gives it without a ROM, FONT at
0x000..0x04F and 0x00 elsewhere (10_state.md R43, R58). -/
def Memory.unlisted (cfg : Config) (a : Nat) : Byte :=
  if h : a < 80 then cfg.font[a] else 0

/-- The listed byte at an address. -/
def Memory.lookup : Memory → Nat → Option Byte
  | [], _ => none
  | (k, b) :: m, a => if k = a then some b else Memory.lookup m a

/-- The byte at an address, `u` giving the unlisted ones. -/
def Memory.read (u : Nat → Byte) (m : Memory) (a : Nat) : Byte :=
  (Memory.lookup m a).getD (u a)

/-- Drop the cell of an address. -/
def Memory.erase (m : Memory) (a : Nat) : Memory := m.filter (fun c => c.1 ≠ a)

/-- Put a cell at its place in the rising order. -/
def Memory.insert : Memory → Nat → Byte → Memory
  | [], a, b => [(a, b)]
  | (k, c) :: m, a, b =>
    if a < k then (a, b) :: (k, c) :: m
    else if a = k then (a, b) :: m
    else (k, c) :: Memory.insert m a b

/-- Write one byte, keeping the canonical form: the value an unlisted address reads as is not listed. -/
def Memory.write (u : Nat → Byte) (m : Memory) (a : Nat) (b : Byte) : Memory :=
  if b = u a then Memory.erase m a else Memory.insert m a b

/-- The canonical form: addresses strictly rising, inside 0x000..0xFFF (R50), no entry equal to what an unlisted address
reads as. -/
abbrev Memory.wf (u : Nat → Byte) (m : Memory) : Prop :=
  m.Pairwise (fun c d => c.1 < d.1) ∧ ∀ c ∈ m, c.1 < 4096 ∧ c.2 ≠ u c.1

/-- MemRead without its check (R52). -/
def State.readByte (s : State) (a : Nat) : Byte :=
  Memory.read (Memory.unlisted s.cfg) s.mem a

/-- MemWrite without its check (R53). -/
def State.writeByte (s : State) (a : Nat) (b : Byte) : State :=
  { s with mem := Memory.write (Memory.unlisted s.cfg) s.mem a b }

/-- The `n` bytes from `base` on, in rising order of address. -/
def State.readBytes (s : State) (base n : Nat) : List Byte :=
  (List.range n).map (fun k => s.readByte (base + k))

/-- Store a list of bytes from `base` on, in rising order of address. -/
def State.writeBytes : State → Nat → List Byte → State
  | s, _, [] => s
  | s, a, b :: bs => State.writeBytes (s.writeByte a b) (a + 1) bs

/-- The check of MemRead (R52). -/
def readCheck (a : Nat) : Option HaltReason :=
  if a > 0xFFF then some (.invalidAddress .data a) else none

/-- The check of MemWrite (R53). -/
def writeCheck (cfg : Config) (a : Nat) : Option HaltReason :=
  if a > 0xFFF then some (.invalidAddress .data a)
  else if cfg.lowGuard && decide (a < 0x200) then some (.protectedAddress .data a)
  else none

/-- Check `n` addresses from `base` on, before any is touched; the lowest failing one is reported (R54). -/
def firstFailing (chk : Nat → Option HaltReason) : Nat → Nat → Option HaltReason
  | _, 0 => none
  | base, n + 1 => (chk base).or (firstFailing chk (base + 1) n)

/-- The check before a fetch (40_cycle.md R101). -/
def fetchCheck (cfg : Config) (pc : Word) : Option HaltReason :=
  if pc.toNat > 0xFFE then some (.invalidAddress .fetch pc.toNat)
  else if cfg.lowGuard && decide (pc.toNat < 0x200) then some (.protectedAddress .fetch pc.toNat)
  else none

/-- The word at PC, big-endian (40_cycle.md R100). -/
def State.fetchWord (s : State) : Word :=
  wordOfBytes (s.readByte s.pc.toNat) (s.readByte (s.pc.toNat + 1))

/-! ### Registers and flags (10_state.md R20 to R33) -/

/-- `V[x]` (00_scope.md R11). -/
def State.getV (s : State) (x : Nibble) : Byte := s.v[x.toNat]

/-- `V[x] <- b`. -/
def State.setV (s : State) (x : Nibble) (b : Byte) : State :=
  { s with v := s.v.set x.toNat b }

/-- Write a result and then the flag, VF being the last register write (44_alu.md R193, 10_state.md R22). -/
def State.setVFlag (s : State) (x : Nibble) (rf : Byte × Byte) : State :=
  (s.setV x rf.1).setV 0xF rf.2

/-- `V[k] <- b` for the bytes of a list, `k` rising from the given index (45_index_memory.md R225). -/
def State.loadRegs : State → Nat → List Byte → State
  | s, _, [] => s
  | s, k, b :: bs => State.loadRegs (s.setV (BitVec.ofNat 4 k) b) (k + 1) bs

/-- `V[0] .. V[x]` in order (45_index_memory.md R224). -/
def State.firstRegs (s : State) (x : Nibble) : List Byte :=
  (List.range (x.toNat + 1)).map (fun k => s.getV (BitVec.ofNat 4 k))

/-- `I <- w`. -/
def State.setI (s : State) (w : Word) : State := { s with i := w }

/-- `PC <- w`. -/
def State.setPc (s : State) (w : Word) : State := { s with pc := w }

/-- `DT <- b`. -/
def State.setDt (s : State) (b : Byte) : State := { s with dt := b }

/-- `ST <- b`. -/
def State.setSt (s : State) (b : Byte) : State := { s with st := b }

/-- `gfx <- g`. -/
def State.setGfx (s : State) (g : Gfx) : State := { s with gfx := g }

/-- `draw <- b`. -/
def State.setDraw (s : State) (b : Bool) : State := { s with draw := b }

/-- `mode <- m`. -/
def State.setMode (s : State) (m : Mode) : State := { s with mode := m }

/-- Key `k` of the snapshot, for an index in range (10_state.md R33). -/
def State.keyDown (s : State) (k : Nat) : Bool := s.keys.getLsbD k

/-! ### The return stack (10_state.md R27, R28; 42_flow.md R140, R142) -/

/-- `stack[SP] <- w; SP <- SP + 1`, or nothing to do when SP = 16. -/
def State.push (s : State) (w : Word) : Option State :=
  if h : s.sp.val < 16 then
    some { s with stack := s.stack.set s.sp.val w, sp := ⟨s.sp.val + 1, by omega⟩ }
  else none

/-- `SP <- SP - 1` and the entry `stack[SP]` it uncovers, or nothing when SP = 0. The entry is not cleared (R28). -/
def State.pop (s : State) : Option (Word × State) :=
  if h : 0 < s.sp.val then
    some (s.stack[s.sp.val - 1], { s with sp := ⟨s.sp.val - 1, by omega⟩ })
  else none

/-! ### The display (10_state.md R31; 41_display.md R123) -/

/-- `gfx(cx, cy)`: column cx, row cy. -/
def Gfx.pixel (g : Gfx) (cx : Fin 64) (cy : Fin 32) : Bool := g[cy][cx]

/-- `gfx(cx, cy) <- gfx(cx, cy) ^ 1`. -/
def Gfx.flip (g : Gfx) (cx : Fin 64) (cy : Fin 32) : Gfx :=
  g.set cy (g[cy].set cx (!g[cy][cx]))

/-- The collision latch and the XOR of one sprite bit that is 1 (R123). -/
def plot (cx : Fin 64) (cy : Fin 32) (gc : Gfx × Bool) : Gfx × Bool :=
  (gc.1.flip cx cy, gc.2 || gc.1.pixel cx cy)

/-- The bits j .. 7 of a sprite row, most-significant bit first: bit j falls on column (cx0 + j) mod 64 (R123).
The last argument counts the bits still to draw. -/
def plotRow (cx0 : Nat) (cy : Fin 32) (row : Byte) : Nat → Gfx × Bool → Gfx × Bool
  | 0, gc => gc
  | k + 1, gc =>
    plotRow cx0 cy row k
      (if row.getLsbD k then plot (Fin.ofNat 64 (cx0 + (7 - k))) cy gc else gc)

/-- The rows of a sprite, top to bottom: the first of the list falls on row cy0 mod 32, the next one below it (R123). -/
def plotSprite (cx0 : Nat) : Nat → List Byte → Gfx × Bool → Gfx × Bool
  | _, [], gc => gc
  | cy0, row :: rows, gc =>
    plotSprite cx0 (cy0 + 1) rows (plotRow cx0 (Fin.ofNat 32 cy0) row 8 gc)

/-! ### Taking a fault (60_exceptions.md R275, R276) -/

/-- The diagnostic of a halt at the state `s` (R276). -/
def State.diag (s : State) (reason : HaltReason) (op : Option Word) : Diag where
  reason := reason
  pc := s.pc
  op := op
  v := s.v
  i := s.i
  sp := s.sp
  stack := s.stack

/-- Fault entry (R275): mode becomes Halted with the diagnostic, halt_out is emitted, nothing else changes.
There is no return from it (R277). -/
def State.enterHalt (s : State) (reason : HaltReason) (op : Option Word) : State :=
  { s with mode := .halted (s.diag reason op), haltOut := some (s.diag reason op) }

/-! ### How an instruction ends (40_cycle.md R104, R105) -/

/-- Apply a handler's outcome to the state it left, `op` being the word that was fetched at PC (R105). A handler never
writes PC, so PC is still pc0. -/
def State.applyOutcome (s : State) (op : Word) : HandlerOutcome → State
  | .advance => s.setPc (s.pc + 2)
  | .skip => s.setPc (s.pc + 4)
  | .jump t => s.setPc t
  | .waitForKey x => s.setMode (.waitingForKey x)
  | .fault r => s.enterHalt r (some op)
  | .unknown => { s with reportOut := some (s.pc, op), pc := s.pc + 2 }

/-- The end of the instruction `i`: the handler left `s` and returned `o`. The word of `i` is the one that was
fetched, ignored fields included (log 9). -/
def finish (i : Instr) (o : HandlerOutcome) (s : State) : Host.Outcome State Fault Refusal :=
  .next (s.applyOutcome (encode i) o)

/-- A skip: PC += 4 when the condition holds, PC += 2 otherwise (00_scope.md R13). -/
def skipIf (c : Bool) : HandlerOutcome := if c then .skip else .advance

/-- A jump to a computed target, with the check of 42_flow.md R141 and R143. -/
def jumpTo (t : Nat) : HandlerOutcome :=
  if t ≥ 4095 then .fault (.invalidAddress .jump t) else .jump (BitVec.ofNat 16 t)

/-- The end of an instruction whose handler checks something first: on a failing check nothing is written (40_cycle.md
R103), otherwise the effect and `Advance`. -/
def finishChecked (i : Instr) (check : Option HaltReason) (s effect : State) : Host.Outcome State Fault Refusal :=
  match check with
  | some r => finish i (.fault r) s
  | none => finish i .advance effect

/-- The end of an instruction that stores a list of bytes at I (45_index_memory.md R223, R224): every address is checked
before any write. -/
def finishStore (i : Instr) (bs : List Byte) (s : State) : Host.Outcome State Fault Refusal :=
  finishChecked i (firstFailing (writeCheck s.cfg) s.i.toNat bs.length) s (s.writeBytes s.i.toNat bs)

end Sys2Proof.Machine
end

