-- ==== Sys2Proof/Machine/Operands.lean ====
section
/-! DEFINITION. The operand forms (30_encoding.md R73, R74, R82) and the values the instructions derive from them. -/

namespace Sys2Proof.Machine

open Sys2Proof

/-- An address field as a 16-bit value, zero-extended (R73). -/
def addrOperand (nnn : Addr) : Word := nnn.setWidth 16

/-- The target of JP V0, widened: V0 + nnn, 0 .. 0x10FE (42_flow.md R143). -/
def State.offsetTarget (s : State) (nnn : Addr) : Nat := (s.getV 0).toNat + nnn.toNat

/-- The key index of SKP and SKNP: the whole byte V[x], not masked; above 0xF it is out of range (43_skip.md R168 to R170). -/
def keyCheck (k : Byte) : Option HaltReason :=
  if k.toNat > 0xF then some (.keyIndexOutOfRange k) else none

/-- The address of a font glyph: V[x] * 5, not masked (45_index_memory.md R222). -/
def glyphAddr (b : Byte) : Word := BitVec.ofNat 16 (b.toNat * 5)

/-- The three decimal digits of a byte, hundreds first (45_index_memory.md R223). -/
def bcdDigits (b : Byte) : List Byte :=
  [BitVec.ofNat 8 (b.toNat / 100), BitVec.ofNat 8 (b.toNat / 10 % 10), BitVec.ofNat 8 (b.toNat % 10)]

/-- The sprite of DRW: n bytes from I on (41_display.md R123). -/
def State.spriteRows (s : State) (n : Nibble) : List Byte := s.readBytes s.i.toNat n.toNat

/-- The sum of ADD I, Vx, widened: 0 .. 0x100FE (45_index_memory.md R221). -/
def State.indexSum (s : State) (x : Nibble) : Nat := s.i.toNat + (s.getV x).toNat

end Sys2Proof.Machine
end

