-- ==== Sys2Proof/Machine/Flags.lean ====
section
/-! DEFINITION. The result and the flag of every instruction that writes VF as a flag (10_state.md R36, 44_alu.md R192, R193): computed exactly on integers, the byte result taken modulo 256. -/

namespace Sys2Proof.Machine

open Sys2Proof

/-- A flag value: 1 or 0. -/
def flag (c : Bool) : Byte := if c then 1 else 0

/-- 8xy4 (R186): the sum modulo 256 and the carry. -/
def addFlag (a b : Byte) : Byte × Byte :=
  (BitVec.ofNat 8 (a.toNat + b.toNat), flag (decide (a.toNat + b.toNat > 255)))

/-- 8xy5 (R187), and 8xy7 (R189) with the operands exchanged: a - b modulo 256, and 1 when a > b strictly. -/
def subFlag (a b : Byte) : Byte × Byte :=
  (BitVec.ofInt 8 ((a.toNat : Int) - b.toNat), flag (decide (a.toNat > b.toNat)))

/-- 8xy6 (R188): shift right by one, and the bit shifted out. -/
def shrFlag (a : Byte) : Byte × Byte := (a >>> 1, a &&& 1)

/-- 8xyE (R190): shift left by one, and the bit shifted out. -/
def shlFlag (a : Byte) : Byte × Byte := (a <<< 1, (a >>> 7) &&& 1)

/-- Dxyn (41_display.md R124): whether a set pixel was cleared. -/
def collisionFlag (c : Bool) : Byte := flag c

/-- Fx1E under FX1E_SETS_VF (45_index_memory.md R221): whether the widened sum leaves the 12-bit address range. -/
def indexFlag (sum : Nat) : Byte := flag (decide (sum > 0xFFF))

end Sys2Proof.Machine
end

