-- ==== Sys2Proof/Machine/Alu.lean ====
section
/-! DEFINITION. Register loads, arithmetic and logic (44_alu.md). -/

namespace Sys2Proof.Machine

open Sys2Proof

/-- 6xkk LD Vx, byte (R180). -/
def execLdImm (x : Nibble) (kk : Byte) (s : State) : Host.Outcome State Fault Refusal :=
  finish (.ldImm x kk) .advance (s.setV x kk)

/-- 7xkk ADD Vx, byte (R181): the sum modulo 256, VF unchanged. -/
def execAddImm (x : Nibble) (kk : Byte) (s : State) : Host.Outcome State Fault Refusal :=
  finish (.addImm x kk) .advance (s.setV x (s.getV x + kk))

/-- 8xy0 LD Vx, Vy (R182). -/
def execLdReg (x y : Nibble) (s : State) : Host.Outcome State Fault Refusal :=
  finish (.ldReg x y) .advance (s.setV x (s.getV y))

/-- 8xy1 OR Vx, Vy (R183): VF is not reset. -/
def execOrReg (x y : Nibble) (s : State) : Host.Outcome State Fault Refusal :=
  finish (.orReg x y) .advance (s.setV x (s.getV x ||| s.getV y))

/-- 8xy2 AND Vx, Vy (R184): VF is not reset. -/
def execAndReg (x y : Nibble) (s : State) : Host.Outcome State Fault Refusal :=
  finish (.andReg x y) .advance (s.setV x (s.getV x &&& s.getV y))

/-- 8xy3 XOR Vx, Vy (R185): VF is not reset. -/
def execXorReg (x y : Nibble) (s : State) : Host.Outcome State Fault Refusal :=
  finish (.xorReg x y) .advance (s.setV x (s.getV x ^^^ s.getV y))

/-- 8xy4 ADD Vx, Vy (R186). -/
def execAddReg (x y : Nibble) (s : State) : Host.Outcome State Fault Refusal :=
  finish (.addReg x y) .advance (s.setVFlag x (addFlag (s.getV x) (s.getV y)))

/-- 8xy5 SUB Vx, Vy (R187). -/
def execSubReg (x y : Nibble) (s : State) : Host.Outcome State Fault Refusal :=
  finish (.subReg x y) .advance (s.setVFlag x (subFlag (s.getV x) (s.getV y)))

/-- 8xy6 SHR Vx (R188): the y field is ignored. -/
def execShr (x y : Nibble) (s : State) : Host.Outcome State Fault Refusal :=
  finish (.shr x y) .advance (s.setVFlag x (shrFlag (s.getV x)))

/-- 8xy7 SUBN Vx, Vy (R189): SUB with the operands exchanged. -/
def execSubnReg (x y : Nibble) (s : State) : Host.Outcome State Fault Refusal :=
  finish (.subnReg x y) .advance (s.setVFlag x (subFlag (s.getV y) (s.getV x)))

/-- 8xyE SHL Vx (R190): the y field is ignored. -/
def execShl (x y : Nibble) (s : State) : Host.Outcome State Fault Refusal :=
  finish (.shl x y) .advance (s.setVFlag x (shlFlag (s.getV x)))

/-- Cxkk RND Vx, byte (R191): the free byte of this tick, masked. -/
def execRnd (x : Nibble) (kk : Byte) (s : State) : Host.Outcome State Fault Refusal :=
  finish (.rnd x kk) .advance (s.setV x (s.rand &&& kk))

end Sys2Proof.Machine
end

