-- ==== Sys2Proof/Machine/Display.lean ====
section
/-! DEFINITION. The display instructions (41_display.md): CLS and DRW. -/

namespace Sys2Proof.Machine

open Sys2Proof

/-- 00E0 CLS (R120): every pixel 0, the draw flag set. -/
def execCls (ign : Nibble) (s : State) : Host.Outcome State Fault Refusal :=
  finish (.cls ign) .advance ((s.setGfx Gfx.blank).setDraw true)

/-- The effect of DRW once its addresses are checked (R123, R124): the compositor, then VF <- collision as the last register
write, then the draw flag. -/
def State.drawSprite (s : State) (x y n : Nibble) : State :=
  let gc := plotSprite (s.getV x).toNat (s.getV y).toNat (s.spriteRows n) (s.gfx, false)
  ((s.setGfx gc.1).setV 0xF (collisionFlag gc.2)).setDraw true

/-- Dxyn DRW Vx, Vy, nibble (R121 to R125). -/
def execDrw (x y n : Nibble) (s : State) : Host.Outcome State Fault Refusal :=
  finishChecked (.drw x y n) (firstFailing readCheck s.i.toNat n.toNat) s (s.drawSprite x y n)

end Sys2Proof.Machine
end

