-- ==== Sys2Proof/Machine/Flow.lean ====
section
/-! DEFINITION. Control transfer (42_flow.md): RET, JP, CALL, JP V0. -/

namespace Sys2Proof.Machine

open Sys2Proof

/-- 00EE RET (R140): StackUnderflow when SP = 0, otherwise pop and jump to the popped address, with no extra advance. -/
def execRet (ign : Nibble) (s : State) : Host.Outcome State Fault Refusal :=
  match s.pop with
  | none => finish (.ret ign) (.fault .stackUnderflow) s
  | some (t, s') => finish (.ret ign) (.jump t) s'

/-- 1nnn JP addr (R141): the check precedes the jump. -/
def execJp (nnn : Addr) (s : State) : Host.Outcome State Fault Refusal :=
  finish (.jp nnn) (jumpTo nnn.toNat) s

/-- 2nnn CALL addr (R142): StackOverflow when SP = 16, otherwise push pc0 + 2 and jump; the target is not checked. -/
def execCall (nnn : Addr) (s : State) : Host.Outcome State Fault Refusal :=
  match s.push (s.pc + 2) with
  | none => finish (.call nnn) (.fault .stackOverflow) s
  | some s' => finish (.call nnn) (.jump (addrOperand nnn)) s'

/-- Bnnn JP V0, addr (R143): V0 + nnn, with JP's check. -/
def execJpV0 (nnn : Addr) (s : State) : Host.Outcome State Fault Refusal :=
  finish (.jpV0 nnn) (jumpTo (s.offsetTarget nnn)) s

end Sys2Proof.Machine
end

