-- ==== Sys2Proof/Machine/IndexMemory.lean ====
section
/-! DEFINITION. The address register and memory transfers (45_index_memory.md). -/

namespace Sys2Proof.Machine

open Sys2Proof

/-- Annn LD I, addr (R220): I is not checked until it is used. -/
def execLdI (nnn : Addr) (s : State) : Host.Outcome State Fault Refusal :=
  finish (.ldI nnn) .advance (s.setI (addrOperand nnn))

/-- Fx1E ADD I, Vx (R221): the sum modulo 2^16; VF only under FX1E_SETS_VF, written last. -/
def execAddIVx (x : Nibble) (s : State) : Host.Outcome State Fault Refusal :=
  let sum := s.indexSum x
  let s' := s.setI (BitVec.ofNat 16 sum)
  finish (.addIVx x) .advance (if s.cfg.fx1eSetsVF then s'.setV 0xF (indexFlag sum) else s')

/-- Fx29 LD F, Vx (R222). -/
def execLdFVx (x : Nibble) (s : State) : Host.Outcome State Fault Refusal :=
  finish (.ldFVx x) .advance (s.setI (glyphAddr (s.getV x)))

/-- Fx33 LD B, Vx (R223): I is not changed. -/
def execLdBVx (x : Nibble) (s : State) : Host.Outcome State Fault Refusal :=
  finishStore (.ldBVx x) (bcdDigits (s.getV x)) s

/-- Fx55 LD [I], Vx (R224): I is not changed. -/
def execLdMemVx (x : Nibble) (s : State) : Host.Outcome State Fault Refusal :=
  finishStore (.ldMemVx x) (s.firstRegs x) s

/-- Fx65 LD Vx, [I] (R225): I is not changed; reads below 0x200 are always allowed. -/
def execLdVxMem (x : Nibble) (s : State) : Host.Outcome State Fault Refusal :=
  finishChecked (.ldVxMem x) (firstFailing readCheck s.i.toNat (x.toNat + 1)) s
    (s.loadRegs 0 (s.readBytes s.i.toNat (x.toNat + 1)))

end Sys2Proof.Machine
end

