-- ==== Sys2Proof/Machine/Skip.lean ====
section
/-! DEFINITION. Conditional skips (43_skip.md). -/

namespace Sys2Proof.Machine

open Sys2Proof

/-- 3xkk SE Vx, byte (R160). -/
def execSeImm (x : Nibble) (kk : Byte) (s : State) : Host.Outcome State Fault Refusal :=
  finish (.seImm x kk) (skipIf (s.getV x == kk)) s

/-- 4xkk SNE Vx, byte (R161). -/
def execSneImm (x : Nibble) (kk : Byte) (s : State) : Host.Outcome State Fault Refusal :=
  finish (.sneImm x kk) (skipIf (s.getV x != kk)) s

/-- 5xy0 SE Vx, Vy (R162). -/
def execSeReg (x y : Nibble) (s : State) : Host.Outcome State Fault Refusal :=
  finish (.seReg x y) (skipIf (s.getV x == s.getV y)) s

/-- 9xy0 SNE Vx, Vy (R163). -/
def execSneReg (x y : Nibble) (s : State) : Host.Outcome State Fault Refusal :=
  finish (.sneReg x y) (skipIf (s.getV x != s.getV y)) s

/-- Ex9E SKP Vx (R168): the index check of R170, then skip if the key is down. -/
def execSkp (x : Nibble) (s : State) : Host.Outcome State Fault Refusal :=
  match keyCheck (s.getV x) with
  | some r => finish (.skp x) (.fault r) s
  | none => finish (.skp x) (skipIf (s.keyDown (s.getV x).toNat)) s

/-- ExA1 SKNP Vx (R169): the index check of R170, then skip if the key is up. -/
def execSknp (x : Nibble) (s : State) : Host.Outcome State Fault Refusal :=
  match keyCheck (s.getV x) with
  | some r => finish (.sknp x) (.fault r) s
  | none => finish (.sknp x) (skipIf (!s.keyDown (s.getV x).toNat)) s

end Sys2Proof.Machine
end

