-- ==== Sys2Proof/Machine/TimerKey.lean ====
section
/-! DEFINITION. Timer access and the key wait (46_timer_key.md). -/

namespace Sys2Proof.Machine

open Sys2Proof

/-- Fx07 LD Vx, DT (R250). -/
def execLdVxDt (x : Nibble) (s : State) : Host.Outcome State Fault Refusal :=
  finish (.ldVxDt x) .advance (s.setV x s.dt)

/-- Fx0A LD Vx, K (R251): suspend; the resumption is the key-wait step of 40_cycle.md R109. -/
def execLdVxK (x : Nibble) (s : State) : Host.Outcome State Fault Refusal :=
  finish (.ldVxK x) (.waitForKey x) s

/-- Fx15 LD DT, Vx (R252). -/
def execLdDtVx (x : Nibble) (s : State) : Host.Outcome State Fault Refusal :=
  finish (.ldDtVx x) .advance (s.setDt (s.getV x))

/-- Fx18 LD ST, Vx (R253). -/
def execLdStVx (x : Nibble) (s : State) : Host.Outcome State Fault Refusal :=
  finish (.ldStVx x) .advance (s.setSt (s.getV x))

end Sys2Proof.Machine
end

