-- ==== Sys2Proof/Machine/Schedule.lean ====
section
/-! DEFINITION. Schedules (60_exceptions.md R286): the admitted ones, which are the weakly fair interleavings of instruction ticks and timer ticks, the free one of them that a run follows when it is given no other, and the reference schedule. -/

namespace Sys2Proof.Machine

open Sys2Proof

/-! ### The admitted schedules -/

/-- An admitted schedule (R286): an interleaving in which both kinds of tick occur infinitely often (weak fairness). -/
def WeaklyFair (f : Nat → Tick) : Prop :=
  ∀ k, (∃ j, k ≤ j ∧ f j = .timer) ∧ ∃ j inp, k ≤ j ∧ f j = .instr inp

/-- The place of the k-th tick whose kind is fixed, `gap` saying how many ticks stand free before each. -/
def fixedAt (gap : Nat → Nat) : Nat → Nat
  | 0 => gap 0
  | k + 1 => fixedAt gap k + 1 + gap (k + 1)

/-- The schedule that is `raw` but at the fixed places, which are by turns a timer tick and an instruction tick with the
inputs of `inp`. Every such schedule is weakly fair, and every weakly fair schedule is one (log 1). -/
def fairTick (gap : Nat → Nat) (raw : Nat → Tick) (inp : Nat → TickInput) (n : Nat) : Tick :=
  match (List.range (n + 1)).find? (fun k => fixedAt gap k == n) with
  | some k => if k % 2 = 0 then .timer else .instr (inp n)
  | none => raw n

/-- The free schedule: some admitted schedule, nothing says which (R8, R286; log 1). -/
def freeSchedule (n : Nat) : Tick := fairTick Config.freeGap Config.freeTick Config.freeInput n

/-! ### The reference schedule -/

/-- The reference schedule (R286): after every n-th instruction tick exactly one timer tick, `c` instruction ticks having
passed since the last one. `n` is CYCLES_PER_TIMER_TICK, which the spec leaves open (log 10). -/
def referenceFrom (n : Nat) : Nat → List TickInput → List Tick
  | _, [] => []
  | c, inp :: rest =>
    if c + 1 = n then .instr inp :: .timer :: referenceFrom n 0 rest
    else .instr inp :: referenceFrom n (c + 1) rest

/-- The reference schedule from `Init` on, for the given inputs of its instruction ticks (R286). -/
def referenceSchedule (n : Nat) (ins : List TickInput) : List Tick := referenceFrom n 0 ins

/-- The inputs of the instruction ticks of a schedule, in order. -/
def instrInputs : List Tick → List TickInput
  | [] => []
  | .instr inp :: ts => inp :: instrInputs ts
  | .timer :: ts => instrInputs ts

/-- How many timer ticks a schedule holds. -/
def timerCount (ts : List Tick) : Nat := ts.countP (fun t => t == .timer)

end Sys2Proof.Machine
end

