-- ==== Sys2Proof/Machine/Driver.lean ====
section
/-! DEFINITION. The cycle driver (40_cycle.md): one instruction tick, one timer tick (60_exceptions.md R285), the schedule (R286) and the outputs (10_state.md R41). -/

namespace Sys2Proof.Machine

open Sys2Proof

/-- Whether the driver has halted. -/
def Mode.isHalted : Mode → Bool
  | .halted _ => true
  | .running => false
  | .waitingForKey _ => false

/-- tone_out (R41, R285): 1 exactly when ST > 0 and mode is not Halted. It is a function of the state after every
transition, so it is not stored. -/
def State.toneOut (s : State) : Bool := decide (s.st.toNat > 0) && !s.mode.isHalted

/-- Every transition starts with its outputs absent (R41; log 7). -/
def State.clearOutputs (s : State) : State :=
  { s with frameOut := none, reportOut := none, haltOut := none }

/-- Step 2 of R108: latch the keypad snapshot; the model also latches the random byte of the tick (log 2). -/
def State.latch (s : State) (inp : TickInput) : State :=
  { s with keys := inp.keysIn, rand := inp.randIn }

/-- The display hand-off at the end of an instruction tick (R110). -/
def State.handOff (s : State) : State :=
  if s.draw then { s with frameOut := some s.gfx, draw := false } else s

/-- What the driver does to the state an instruction left. -/
def onNext (f : State → State) : Host.Outcome State Fault Refusal → Host.Outcome State Fault Refusal
  | .next s => .next (f s)
  | .fault r => .fault r
  | .refused r => .refused r

/-- A tick in Running, without the hand-off (R108 step 4): fetch check (R101), fetch (R100), decode (R102), then the
instruction, or the report of an Unknown word (R106). -/
def State.fetchAndExecute (s : State) : Host.Outcome State Fault Refusal :=
  match fetchCheck s.cfg s.pc with
  | some r => .next (s.enterHalt r none)
  | none =>
    match decodeWord s.cfg.zeroGroupMask s.fetchWord with
    | some i => exec i s
    | none => .next (s.applyOutcome s.fetchWord .unknown)

/-- The key-wait step (R109): the earliest key-down event of this tick ends the wait; the tick executes no instruction. -/
def State.keyWait (s : State) (x : Nibble) (keydown : List Nibble) : State :=
  match keydown with
  | [] => s
  | k :: _ => ((s.setV x (k.setWidth 8)).setPc (s.pc + 2)).setMode .running

/-- `InstrTick` (R108), from a state whose outputs are cleared. A quit halts before any fetch (step 3). -/
def instrTick (inp : TickInput) (s : State) : Host.Outcome State Fault Refusal :=
  match s.mode with
  | .halted _ => .next s
  | .running =>
    if inp.quitIn then .next ((s.latch inp).enterHalt .userQuit none).handOff
    else onNext State.handOff (s.latch inp).fetchAndExecute
  | .waitingForKey x =>
    if inp.quitIn then .next ((s.latch inp).enterHalt .userQuit none).handOff
    else .next ((s.latch inp).keyWait x inp.keydownIn).handOff

/-- One decrement of a timer, never below 0 (10_state.md R29, R30). -/
def countDown (b : Byte) : Byte := if b.toNat > 0 then b - 1 else b

/-- `TimerTick` (60_exceptions.md R285), from a state whose outputs are cleared. -/
def timerTick (s : State) : State :=
  match s.mode with
  | .halted _ => s
  | .running => (s.setDt (countDown s.dt)).setSt (countDown s.st)
  | .waitingForKey _ => (s.setDt (countDown s.dt)).setSt (countDown s.st)

/-- The tick that comes next and the state without it: the head of the list given from outside, or the next
of the free, weakly fair schedule (log 1). -/
def State.nextTick (s : State) : Tick × State :=
  match s.ticks with
  | t :: rest => (t, { s with ticks := rest })
  | [] => (freeSchedule s.drawn, { s with drawn := s.drawn + 1 })

/-- The schedule of the run from `s`, tick by tick: the list given from outside, then the free schedule (R286; log 1). -/
def State.schedule (s : State) (k : Nat) : Tick :=
  s.ticks.getD k (freeSchedule (s.drawn + (k - s.ticks.length)))

/-- One transition of a running core: the next tick, with the outputs of the transition before it gone. -/
def transition (s : State) : Host.Outcome State Fault Refusal :=
  match s.nextTick.1 with
  | .instr inp => instrTick inp s.nextTick.2.clearOutputs
  | .timer => .next (timerTick s.nextTick.2.clearOutputs)

/-! ### The halt codes (R271, R282) -/

/-- The numeric code of a halt reason (R271). -/
def HaltReason.code : HaltReason → Nat
  | .userQuit => 0
  | .stackOverflow => 1
  | .stackUnderflow => 2
  | .invalidAddress _ _ => 3
  | .keyIndexOutOfRange _ => 4
  | .protectedAddress _ _ => 5

/-- Whether the process exit code is 0 (R282): on a clean quit only. The non-zero values are the host's. -/
def HaltReason.exitZero : HaltReason → Bool
  | .userQuit => true
  | .stackOverflow => false
  | .stackUnderflow => false
  | .invalidAddress _ _ => false
  | .keyIndexOutOfRange _ => false
  | .protectedAddress _ _ => false

end Sys2Proof.Machine
end

