-- ==== Sys2Proof/Machine/Init.lean ====
section
/-! DEFINITION. Initialisation from a ROM (70_reset_and_hazards.md R310, R311, R318). -/

namespace Sys2Proof.Machine

open Sys2Proof

/-- What the ROM loader reports (60_exceptions.md R279, R293). -/
inductive RomReport where
  | ioError
  | bytes (rom : List Byte)
deriving DecidableEq, Repr

/-- The longest ROM: 4096 - 512 bytes (00_scope.md R6). -/
def maxRomBytes : Nat := 3584

/-- The state of `Init` before the ROM is copied: R43 under the given parameters. -/
def State.blank (cfg : Config) : State := { State.reset with cfg := cfg }

/-- `Init(rom)` (R310): no state at all on a load fault (R311), otherwise the blank state with the ROM copied verbatim
to 0x200. -/
def State.init (cfg : Config) : RomReport → Option State
  | .ioError => none
  | .bytes rom =>
    if rom.length > maxRomBytes then none
    else some ((State.blank cfg).writeBytes 0x200 rom)

end Sys2Proof.Machine
end

