-- ==== Sys2Proof/Machine/Step.lean ====
section
/-! DEFINITION. One step of the machine, and how the host places an instruction where it runs next. -/

namespace Sys2Proof.Machine

open Sys2Proof

/-- One step: one transition of the core (10_state.md R40), an instruction tick or a timer tick. -/
def step (s : State) : Host.Outcome State Fault Refusal := transition s

/-- `s` with the instruction word of the opcode table's bits where the next step fetches and runs it: the word's bytes at
PC, the driver Running, and one instruction tick at the head of the schedule, with the keypad and the random byte as they are,
no key-down event and no quit. Where PC names no word that may be fetched (40_cycle.md R101) it is the program load address
0x200 (log 13). -/
def State.withFetchWord (s : State) (nbits w : Nat) : State :=
  let pc := if (fetchCheck s.cfg s.pc).isSome then 0x200 else s.pc
  let op := tableWord nbits w
  let s1 := (s.writeByte pc.toNat (hiByte op)).writeByte (pc.toNat + 1) (loByte op)
  let inp : TickInput := { keysIn := s.keys, keydownIn := [], quitIn := false, randIn := s.rand }
  { s1 with pc := pc, mode := .running, ticks := .instr inp :: s.ticks }

end Sys2Proof.Machine
end

