-- ==== Sys2Proof/Safety.lean ====
section
/-! DEFINITION. The terms claims use: which components of the state agree, the invariants of a run (10_state.md R24, R27, R44; 60_exceptions.md R276), and what a safe run is (60_exceptions.md R270). -/

namespace Sys2Proof.Machine

open Sys2Proof

/-- The components of the state: the record of 10_state.md R20, the parameters, the model's own fields and the outputs. -/
inductive Component where
  | mem | v | i | pc | sp | stack | dt | st | gfx | draw | keys | mode
  | cfg | rand | ticks | drawn | frameOut | reportOut | haltOut
deriving DecidableEq, Repr

/-- Two states agree in a component. Memory agrees when every byte reads the same. -/
def Component.Agrees (c : Component) (s t : State) : Prop :=
  match c with
  | .mem => ∀ a, t.readByte a = s.readByte a
  | .v => ∀ r, t.getV r = s.getV r
  | .i => t.i = s.i
  | .pc => t.pc = s.pc
  | .sp => t.sp = s.sp
  | .stack => t.stack = s.stack
  | .dt => t.dt = s.dt
  | .st => t.st = s.st
  | .gfx => t.gfx = s.gfx
  | .draw => t.draw = s.draw
  | .keys => t.keys = s.keys
  | .mode => t.mode = s.mode
  | .cfg => t.cfg = s.cfg
  | .rand => t.rand = s.rand
  | .ticks => t.ticks = s.ticks
  | .drawn => t.drawn = s.drawn
  | .frameOut => t.frameOut = s.frameOut
  | .reportOut => t.reportOut = s.reportOut
  | .haltOut => t.haltOut = s.haltOut

/-- The frame of a change: every component outside the list agrees. -/
def KeepsExcept (cs : List Component) (s t : State) : Prop := ∀ c, c ∉ cs → c.Agrees s t

/-- The snapshot of a diagnostic is the state `s` (60_exceptions.md R276): PC, the registers, I, SP and the stack. -/
def Diag.Captures (d : Diag) (s : State) : Prop :=
  d.pc = s.pc ∧ d.v = s.v ∧ d.i = s.i ∧ d.sp = s.sp ∧ d.stack = s.stack

/-- `t` is `s` halted: fault entry (60_exceptions.md R275) with this reason and opcode, the diagnostic capturing `s` and
emitted on halt_out, and nothing else changed. -/
def HaltsWith (reason : HaltReason) (op : Option Word) (s t : State) : Prop :=
  ∃ d, t.mode = .halted d ∧ t.haltOut = some d ∧ d.reason = reason ∧ d.op = op ∧ d.Captures s ∧
    KeepsExcept [.mode, .haltOut] s t

/-- Memory has its canonical form (10_state.md R34: 4096 bytes and no more). -/
def State.MemOk (s : State) : Prop := Memory.wf (Memory.unlisted s.cfg) s.mem

/-- PC never leaves the range the rules compute, 0 to 0x1002 (10_state.md R24): return addresses are at most 0x1000, and a
key wait stands at a word that was fetched. -/
def State.PcOk (s : State) : Prop :=
  s.pc.toNat ≤ 0x1002 ∧ (∀ k : Fin 16, s.stack[k].toNat ≤ 0x1000) ∧
    ∀ x, s.mode = .waitingForKey x → s.pc.toNat ≤ 0xFFE

/-- A halted state still holds what its diagnostic captured (60_exceptions.md R276, R277). -/
def State.DiagOk (s : State) : Prop :=
  ∀ d, s.mode = .halted d → d.Captures s

/-- No frame waits for the display between ticks (10_state.md R44). -/
def State.DrawOk (s : State) : Prop := s.draw = false

/-- A safe state: not halted by a fault; a clean quit is safe (60_exceptions.md R270, R282). -/
def State.Safe (s : State) : Prop := ∀ d, s.mode = .halted d → d.reason.exitZero = true

/-- The sprite that DRW draws from `s` has a 1 bit on pixel (cx, cy): bit j of row i falls on column (V[x] + j) mod 64 and
row (V[y] + i) mod 32 (41_display.md R123). -/
def SpriteCovers (s : State) (x y n : Nibble) (cx : Fin 64) (cy : Fin 32) : Prop :=
  ∃ i j : Nat, i < n.toNat ∧ j < 8 ∧ (s.readByte (s.i.toNat + i)).getLsbD (7 - j) = true ∧
    cx.val = ((s.getV x).toNat + j) % 64 ∧ cy.val = ((s.getV y).toNat + i) % 32

/-- The `n` bytes from I on are all in memory (20_memory.md R52). -/
def State.InMemory (s : State) (n : Nat) : Prop := n = 0 ∨ s.i.toNat + n ≤ 4096

/-- The `n` bytes from I on may be written (20_memory.md R53). -/
def State.Writable (s : State) (n : Nat) : Prop :=
  s.InMemory n ∧ (n = 0 ∨ s.cfg.lowGuard = false ∨ 0x200 ≤ s.i.toNat)

/-- `s` with its next tick taken and the outputs absent, and nothing else changed: what a tick starts from (10_state.md R40,
R41; log 1, log 7). Written without the driver's own operations. -/
def State.ticked (s : State) : State :=
  { s with
    ticks := s.ticks.tail, drawn := if s.ticks.isEmpty then s.drawn + 1 else s.drawn,
    frameOut := none, reportOut := none, haltOut := none }

/-- The state an instruction runs on: the tick taken, the keypad snapshot and the random byte those of its inputs
(40_cycle.md R108 step 2; log 2). Written without the driver's own operations. -/
def State.latched (s : State) (inp : TickInput) : State :=
  { s.ticked with keys := inp.keysIn, rand := inp.randIn }

/-- The next tick is an instruction tick with these inputs and no quit. -/
def State.InstrTickNext (s : State) (inp : TickInput) : Prop :=
  s.nextTick.1 = .instr inp ∧ inp.quitIn = false

end Sys2Proof.Machine
end

