-- ==== Sys2Proof/Certificates/Slice0/Obligations.lean ====
section
/-! DEFINITION. The statements for the provers. Each docstring says which rule of spec/ a statement formalises, and which of the spec's own decisions (92_eei_decisions.md) or of the model's (log) it rests on. -/

open Sys2Proof Sys2Proof.Machine

/-! ### The encodings as the instruction rules write them -/

/-- `base | nnn`. -/
def Sys2Proof.wordA (base : Word) (nnn : Addr) : Word := base ||| nnn.setWidth 16

/-- `base | x << 8`. -/
def Sys2Proof.wordX (base : Word) (x : Nibble) : Word := base ||| (x.setWidth 16 <<< 8)

/-- `base | x << 8 | kk`. -/
def Sys2Proof.wordXK (base : Word) (x : Nibble) (kk : Byte) : Word :=
  base ||| (x.setWidth 16 <<< 8) ||| kk.setWidth 16

/-- `base | x << 8 | y << 4`. -/
def Sys2Proof.wordXY (base : Word) (x y : Nibble) : Word :=
  base ||| (x.setWidth 16 <<< 8) ||| (y.setWidth 16 <<< 4)

/-! ### Encoding -/

/-- R72: the fields are the masked and shifted bits of the word. -/
def Obligations.FieldsAreMaskedBits : Prop :=
  ∀ op : Word, (fieldX op).setWidth 16 = (op &&& 0x0F00) >>> 8 ∧ (fieldY op).setWidth 16 = (op &&& 0x00F0) >>> 4 ∧
    (fieldNNN op).setWidth 16 = op &&& 0x0FFF ∧ (fieldKK op).setWidth 16 = op &&& 0x00FF ∧
    (fieldN op).setWidth 16 = op &&& 0x000F

/-- Words of each family, written out from R71 and R76, decode to the instruction they stand for; Unknown words of R79 to
none. A check on fixed words. -/
def Obligations.SampleWordsDecode : Prop :=
  decodeTableWord 16 0x00E0 = some (.cls 0) ∧ decodeTableWord 16 0xD125 = some (.drw 1 2 5) ∧
    decodeTableWord 16 0x2400 = some (.call 0x400) ∧ decodeTableWord 16 0x3342 = some (.seImm 3 0x42) ∧
    decodeTableWord 16 0x8AB4 = some (.addReg 0xA 0xB) ∧ decodeTableWord 16 0x801E = some (.shl 0 1) ∧
    decodeTableWord 16 0xFF65 = some (.ldVxMem 0xF) ∧ decodeTableWord 16 0xF20A = some (.ldVxK 2) ∧
    decodeTableWord 16 0x0123 = none ∧ decodeTableWord 16 0x5121 = none

/-- Decode and encode agree: the bytes of every well-formed instruction decode to it, with every operand at every value,
whatever follows them. The byte order is that of R51 and R100, in values: the byte at the lower address is the most
significant one, so the word of two bytes is 256 times the first plus the second, and the bytes of an instruction are its
word's quotient and remainder by 256. -/
def Obligations.DecodeOfEncodeIsIdentity : Prop :=
  (∀ (m : ZeroGroupMask) (i : Instr) (rest : List Byte), i.wellFormed m = true →
    decode m (encodeBytes i ++ rest) = .instr i rest) ∧
  (∀ hi lo : Byte, (wordOfBytes hi lo).toNat = 256 * hi.toNat + lo.toNat) ∧
  (∀ i : Instr, (encodeBytes i).map BitVec.toNat = [(encode i).toNat / 256, (encode i).toNat % 256]) ∧
  (∀ s : State, s.fetchWord.toNat =
    256 * (s.readByte s.pc.toNat).toNat + (s.readByte (s.pc.toNat + 1)).toNat)

/-- The other direction: a word that decodes is the word of the instruction it decodes to, which is well formed. -/
def Obligations.EncodeOfDecodeIsIdentity : Prop :=
  ∀ (m : ZeroGroupMask) (op : Word) (i : Instr), decodeWord m op = some i → encode i = op ∧ i.wellFormed m = true

/-- R76: a word decodes exactly when it selects a row of the match and mask table, to an instruction of that row, and no
word selects two rows. -/
def Obligations.DecodeFollowsMatchMaskTable : Prop :=
  ∀ (m : ZeroGroupMask) (op : Word),
    (∀ i, decodeWord m op = some i → i.row m ∈ opcodeRows m ∧ (i.row m).selects op = true) ∧
    (∀ r ∈ opcodeRows m, r.selects op = true → ∃ i, decodeWord m op = some i ∧ i.row m = r) ∧
    (∀ r ∈ opcodeRows m, ∀ r' ∈ opcodeRows m, r.selects op = true → r'.selects op = true → r = r')

/-- R77 (decision D12, the parameter ZERO_GROUP_MASK): bits 11:8 of CLS and RET are ignored under 0xF0FF and must be 0
under 0xFFFF. -/
def Obligations.ZeroGroupMaskSelectsClsRet : Prop :=
  ∀ ign : Nibble,
    decodeWord .lowByte (wordX 0x00E0 ign) = some (.cls ign) ∧ decodeWord .lowByte (wordX 0x00EE ign) = some (.ret ign) ∧
    decodeWord .fullWord (wordX 0x00E0 ign) = (if ign = 0 then some (.cls 0) else none) ∧
    decodeWord .fullWord (wordX 0x00EE ign) = (if ign = 0 then some (.ret 0) else none)

/-! ### One step -/

/-- A step runs the decoded instruction (40_cycle.md R100 to R108): in Running, on an instruction tick without a quit, when
PC may be fetched from and the two bytes there decode to `i`, the step is `exec i` on the state with the tick taken and its
inputs latched, and then the display hand-off. (The order of latch and quit check is the spec's decision D17, D30, D32;
where the tick comes from is the model's, log 1.) -/
def Obligations.StepRunsDecodedInstruction : Prop :=
  ∀ (s : State) (inp : TickInput) (i : Instr), s.InstrTickNext inp → s.mode = .running →
    s.pc.toNat ≤ 0xFFE → (s.cfg.lowGuard = false ∨ 0x200 ≤ s.pc.toNat) →
    decode s.cfg.zeroGroupMask [s.readByte s.pc.toNat, s.readByte (s.pc.toNat + 1)] = .instr i [] →
    step s = onNext State.handOff (exec i (s.latched inp))

/-- R106: an Unknown word changes nothing but PC, is reported with its PC, and the driver stays Running. (The tick also
latches its inputs, R108; no frame is waiting, the invariant of DrawFlagClearBetweenTicks.) -/
def Obligations.UnknownWordIsReportedAndSkipped : Prop :=
  ∀ (s : State) (inp : TickInput), s.InstrTickNext inp → s.mode = .running → s.DrawOk →
    s.pc.toNat ≤ 0xFFE → (s.cfg.lowGuard = false ∨ 0x200 ≤ s.pc.toNat) →
    decodeWord s.cfg.zeroGroupMask (wordOfBytes (s.readByte s.pc.toNat) (s.readByte (s.pc.toNat + 1))) = none →
    ∃ t, step s = .next t ∧ t.pc = s.pc + 2 ∧
      t.reportOut = some (s.pc, wordOfBytes (s.readByte s.pc.toNat) (s.readByte (s.pc.toNat + 1))) ∧
      t.mode = .running ∧ t.frameOut = none ∧ t.haltOut = none ∧ KeepsExcept [.pc, .reportOut] (s.latched inp) t

/-- R101 (decisions D5, D13): a fetch outside memory halts with InvalidAddress, one below 0x200 under LOW_GUARD with
ProtectedAddress; the diagnostic has no opcode and PC stays. -/
def Obligations.BadFetchHalts : Prop :=
  ∀ (s : State) (inp : TickInput), s.InstrTickNext inp → s.mode = .running → s.DrawOk →
    (s.pc.toNat > 0xFFE → ∃ t, step s = .next t ∧
      HaltsWith (.invalidAddress .fetch s.pc.toNat) none (s.latched inp) t) ∧
    (s.cfg.lowGuard = true → s.pc.toNat < 0x200 → ∃ t, step s = .next t ∧
      HaltsWith (.protectedAddress .fetch s.pc.toNat) none (s.latched inp) t)

/-- R296 and R108 step 3 (its place before execution is decision D30): a quit halts with UserQuit, in Running and while
waiting for a key, and executes nothing. -/
def Obligations.QuitHaltsBeforeExecution : Prop :=
  ∀ (s : State) (inp : TickInput), s.nextTick.1 = .instr inp → inp.quitIn = true → s.mode.isHalted = false → s.DrawOk →
    ∃ t, step s = .next t ∧ HaltsWith .userQuit none (s.latched inp) t

/-- R109 (details: decision D20): while waiting, a tick without a key-down event changes nothing; with one, the first key
goes into the target register, PC advances by 2 and the driver runs again; no instruction is decoded. -/
def Obligations.KeyWaitTakesFirstKeyDown : Prop :=
  ∀ (s : State) (inp : TickInput) (x : Nibble), s.InstrTickNext inp → s.mode = .waitingForKey x → s.DrawOk →
    (inp.keydownIn = [] → ∃ t, step s = .next t ∧ KeepsExcept [] (s.latched inp) t) ∧
    (∀ k ks, inp.keydownIn = k :: ks → ∃ t, step s = .next t ∧
      (∀ r, t.getV r = if r = x then BitVec.ofNat 8 k.toNat else s.getV r) ∧ t.pc = s.pc + 2 ∧ t.mode = .running ∧
      KeepsExcept [.v, .pc, .mode] (s.latched inp) t)

/-- R285 (in Halted: decision D19): a timer tick decrements DT and ST by 1 while they are above 0, in Running and in
WaitingForKey, and changes nothing else; the tone is on exactly while ST > 0. -/
def Obligations.TimerTickDecrementsBothTimers : Prop :=
  ∀ s : State, s.nextTick.1 = .timer → s.mode.isHalted = false →
    ∃ t, step s = .next t ∧ t.dt.toNat = s.dt.toNat - 1 ∧ t.st.toNat = s.st.toNat - 1 ∧
      t.toneOut = decide (t.st.toNat > 0) ∧ KeepsExcept [.dt, .st] s.ticked t

/-- R277, R111 (decision D19): Halted is terminal. However many ticks follow, every component of the record keeps its
value, and a tick in Halted emits nothing and no tone. -/
def Obligations.HaltedIsTerminal : Prop :=
  ∀ (k : Nat) (s : State), s.mode.isHalted = true →
    ∃ t : State, Host.Core.run Sys2Proof.core k s = .next t ∧
      KeepsExcept [.ticks, .drawn, .frameOut, .reportOut, .haltOut] s t ∧ t.toneOut = false ∧
      (0 < k → t.frameOut = none ∧ t.reportOut = none ∧ t.haltOut = none)

/-- R112 and 93_implementation_defined.md U14: every tick is defined in every state; a step always answers a next
state. R286 (decision D18): it takes exactly the first tick of the schedule of its state, leaving the others for the steps
after it, and that schedule is an admitted one: both kinds of tick occur infinitely often. (The schedule held as a list and a
free rest is the model's, log 1.) -/
def Obligations.EveryStepAnswers : Prop :=
  ∀ s : State, s.nextTick.1 = s.schedule 0 ∧ WeaklyFair s.schedule ∧
    ∃ t, step s = .next t ∧ ∀ k, t.schedule k = s.schedule (k + 1)

/-- R110 (decision D27) and R329: an instruction tick that executes CLS or a DRW that does not fault emits one frame, which
is the display buffer the instruction left; every other executed instruction emits none; no report is made. The hand-off
changes nothing but the draw flag and the frame output. -/
def Obligations.FramesComeFromClsAndDrw : Prop :=
  ∀ (s : State) (inp : TickInput) (i : Instr), s.InstrTickNext inp → s.mode = .running → s.DrawOk →
    s.pc.toNat ≤ 0xFFE → (s.cfg.lowGuard = false ∨ 0x200 ≤ s.pc.toNat) →
    decodeWord s.cfg.zeroGroupMask s.fetchWord = some i →
    ∃ u t, exec i (s.latched inp) = .next u ∧ step s = .next t ∧ KeepsExcept [.draw, .frameOut] u t ∧
      t.draw = false ∧ t.reportOut = none ∧
      ((∃ ign, i = .cls ign) → t.frameOut = some u.gfx) ∧
      ((∃ x y n, i = .drw x y n) → t.frameOut = if u.mode.isHalted then none else some u.gfx) ∧
      ((∀ ign, i ≠ .cls ign) → (∀ x y n, i ≠ .drw x y n) → t.frameOut = none)

/-! ### Initialisation -/

/-- R310, R311 and the table of R43 (the zero values are the spec's decision D1, the length rule D31): Init of a ROM of at
most 3584 bytes gives the font, the ROM from 0x200, zero elsewhere, PC = 0x200, Running and every other component zero;
a longer ROM or an I/O error gives no state. -/
def Obligations.InitSeedsFontAndRom : Prop :=
  ∀ (cfg : Config), State.init cfg .ioError = none ∧
    ∀ rom : List Byte, (rom.length > 3584 → State.init cfg (.bytes rom) = none) ∧
      (rom.length ≤ 3584 → ∃ s, State.init cfg (.bytes rom) = some s ∧
        (∀ (a : Nat) (h : a < 80), s.readByte a = cfg.font[a]) ∧
        (∀ a, 0x50 ≤ a → a < 0x200 → s.readByte a = 0) ∧
        (∀ (k : Nat) (h : k < rom.length), s.readByte (0x200 + k) = rom[k]) ∧
        (∀ a, 0x200 + rom.length ≤ a → s.readByte a = 0) ∧
        s.MemOk ∧ s.pc = 0x200 ∧ s.mode = .running ∧ s.cfg = cfg ∧
        (∀ r, s.getV r = 0) ∧ s.i = 0 ∧ s.sp = 0 ∧ (∀ k : Fin 16, s.stack[k] = 0) ∧ s.dt = 0 ∧ s.st = 0 ∧
        (∀ cx cy, s.gfx.pixel cx cy = false) ∧ s.draw = false ∧ s.keys = 0)

/-- The reset state is Init of the empty ROM under the default parameters (R311; the parameters' defaults are R7). -/
def Obligations.ResetIsInitOfEmptyRom : Prop :=
  State.init Config.default (.bytes []) = some State.reset

/-! ### Invariants that every step keeps -/

/-- The invariants below hold at reset. -/
def Obligations.InvariantsHoldAtReset : Prop :=
  State.reset.MemOk ∧ State.reset.PcOk ∧ State.reset.DiagOk ∧ State.reset.DrawOk ∧ State.reset.Safe

/-- R34, R44: memory keeps its canonical form, so it holds exactly the 4096 bytes. -/
def Obligations.MemoryFormKeptByEveryStep : Prop :=
  ∀ s t : State, s.MemOk → step s = .next t → t.MemOk

/-- R24 (with decisions D4, D5): PC never exceeds 0x1002, so it never wraps, whatever the program does. -/
def Obligations.PcNeverWrapsInAnyStep : Prop :=
  ∀ s t : State, s.PcOk → step s = .next t → t.PcOk

/-- R275, R276, R277 (decision D21): a halted state still holds the PC, registers, I, SP and stack that its diagnostic
captured; and the diagnostic of a halt captures the state before the tick that halted, V, I, SP, the stack and PC being those
that tick found. -/
def Obligations.DiagnosticMatchesHaltedState : Prop :=
  (∀ s t : State, s.DiagOk → step s = .next t → t.DiagOk) ∧
  (∀ (s t : State) (d : Diag), s.mode.isHalted = false → step s = .next t → t.mode = .halted d →
    t.haltOut = some d ∧ d.pc = s.pc ∧ d.v = s.v ∧ d.i = s.i ∧ d.sp = s.sp ∧ d.stack = s.stack)

/-- R44 (derived there from R110): the draw flag is 0 between ticks. -/
def Obligations.DrawFlagClearBetweenTicks : Prop :=
  ∀ s t : State, s.DrawOk → step s = .next t → t.DrawOk

/-- R7: the parameters are fixed for the machine; no step changes one. -/
def Obligations.ParametersNeverChange : Prop :=
  ∀ s t : State, step s = .next t → t.cfg = s.cfg

/-! ### Rules over all instructions -/

/-- R272 (derived there) with the checks of R52, R53, R140 to R143, R170 (decisions D6, D7, D8): which instructions can
halt, and with which reason. -/
def Obligations.OnlyListedInstructionsFault : Prop :=
  ∀ (i : Instr) (s t : State) (d : Diag), s.mode.isHalted = false → exec i s = .next t → t.mode = .halted d →
    ((∃ ign, i = .ret ign) ∧ d.reason = .stackUnderflow) ∨
    ((∃ nnn, i = .call nnn) ∧ d.reason = .stackOverflow) ∨
    (((∃ nnn, i = .jp nnn) ∨ ∃ nnn, i = .jpV0 nnn) ∧ ∃ a, d.reason = .invalidAddress .jump a ∧ 0xFFF ≤ a) ∨
    (((∃ x, i = .skp x) ∨ ∃ x, i = .sknp x) ∧ ∃ k, d.reason = .keyIndexOutOfRange k ∧ 0xF < k.toNat) ∨
    (((∃ x y n, i = .drw x y n) ∨ (∃ x, i = .ldBVx x) ∨ (∃ x, i = .ldMemVx x) ∨ ∃ x, i = .ldVxMem x) ∧
      ∃ a, d.reason = .invalidAddress .data a ∧ 0xFFF < a) ∨
    (((∃ x, i = .ldBVx x) ∨ ∃ x, i = .ldMemVx x) ∧ s.cfg.lowGuard = true ∧
      ∃ a, d.reason = .protectedAddress .data a ∧ a < 0x200)

/-- R275, R276, R103 (decision D21): an instruction that halts has no other effect, and the diagnostic holds the
instruction's own word and the PC, V, I, SP and stack of the state before it. -/
def Obligations.FaultingInstructionHasNoEffect : Prop :=
  ∀ (i : Instr) (s t : State) (d : Diag), s.mode.isHalted = false → exec i s = .next t → t.mode = .halted d →
    d.op = some (encode i) ∧ d.pc = s.pc ∧ d.v = s.v ∧ d.i = s.i ∧ d.sp = s.sp ∧ d.stack = s.stack ∧
    t.haltOut = some d ∧ KeepsExcept [.mode, .haltOut] s t

/-- R31: the display buffer is mutated only by CLS and DRW. -/
def Obligations.OnlyClsAndDrwChangeDisplay : Prop :=
  ∀ (i : Instr) (s t : State), (∀ ign, i ≠ .cls ign) → (∀ x y n, i ≠ .drw x y n) → exec i s = .next t →
    t.gfx = s.gfx ∧ t.draw = s.draw

/-- R55 (derived there): no instruction but Fx33 and Fx55 changes a byte of memory. -/
def Obligations.OnlyStoresChangeMemory : Prop :=
  ∀ (i : Instr) (s t : State), (∀ x, i ≠ .ldBVx x) → (∀ x, i ≠ .ldMemVx x) → exec i s = .next t →
    ∀ a, t.readByte a = s.readByte a

/-- R27, R28: SP changes only by CALL, which needs SP < 16 and adds 1, and by RET, which needs SP > 0 and takes 1 away; a
stack entry changes only by CALL, and only the entry at the old SP. -/
def Obligations.OnlyCallAndRetMoveStack : Prop :=
  ∀ (i : Instr) (s t : State), exec i s = .next t →
    (t.sp = s.sp ∨ ((∃ nnn, i = .call nnn) ∧ s.sp.val < 16 ∧ t.sp.val = s.sp.val + 1) ∨
      ((∃ ign, i = .ret ign) ∧ 0 < s.sp.val ∧ t.sp.val + 1 = s.sp.val)) ∧
    (∀ k : Fin 16, t.stack[k] = s.stack[k] ∨ ((∃ nnn, i = .call nnn) ∧ k.val = s.sp.val))

/-- R24: PC advances by exactly 2 unless the instruction is a jump, call, return or skip, waits for a key, or halts. -/
def Obligations.PcAdvancesByTwo : Prop :=
  ∀ (i : Instr) (s t : State), exec i s = .next t → s.mode = .running → t.mode = .running →
    (∀ nnn, i ≠ .jp nnn) → (∀ nnn, i ≠ .jpV0 nnn) → (∀ nnn, i ≠ .call nnn) → (∀ ign, i ≠ .ret ign) →
    (∀ x kk, i ≠ .seImm x kk) → (∀ x kk, i ≠ .sneImm x kk) → (∀ x y, i ≠ .seReg x y) → (∀ x y, i ≠ .sneReg x y) →
    (∀ x, i ≠ .skp x) → (∀ x, i ≠ .sknp x) → t.pc = s.pc + 2

/-- R103, R33, R42: no instruction writes the keypad snapshot, the parameters, the random byte, the schedule or the frame
output, and none makes a report. -/
def Obligations.InstructionsLeaveInputsAlone : Prop :=
  ∀ (i : Instr) (s t : State), exec i s = .next t →
    KeepsExcept [.mem, .v, .i, .pc, .sp, .stack, .dt, .st, .gfx, .draw, .mode, .haltOut] s t

/-! ### Display -/

/-- R120: CLS clears every pixel and sets the draw flag, whatever the ignored bits hold. -/
def Obligations.ClsClearsScreen : Prop :=
  ∀ (ign : Nibble) (s : State), encode (.cls 0) = 0x00E0 ∧
    decodeWord .lowByte (wordX 0x00E0 ign) = some (.cls ign) ∧
    ∃ t, exec (.cls ign) s = .next t ∧ (∀ cx cy, t.gfx.pixel cx cy = false) ∧ t.draw = true ∧ t.pc = s.pc + 2 ∧
      KeepsExcept [.gfx, .draw, .pc] s t

/-- R123, R124: when the sprite is in memory, DRW flips exactly the pixels under the sprite's 1 bits, with the columns
modulo 64 and the rows modulo 32; VF is 1 exactly when a set pixel was cleared, written last; the draw flag is set. -/
def Obligations.DrwFlipsExactlySpritePixels : Prop :=
  ∀ (x y n : Nibble) (s : State), s.InMemory n.toNat →
    ∃ t, exec (.drw x y n) s = .next t ∧
      (∀ cx cy, SpriteCovers s x y n cx cy → t.gfx.pixel cx cy = !s.gfx.pixel cx cy) ∧
      (∀ cx cy, ¬ SpriteCovers s x y n cx cy → t.gfx.pixel cx cy = s.gfx.pixel cx cy) ∧
      ((∃ cx cy, SpriteCovers s x y n cx cy ∧ s.gfx.pixel cx cy = true) → t.getV 0xF = 1) ∧
      ((∀ cx cy, SpriteCovers s x y n cx cy → s.gfx.pixel cx cy = false) → t.getV 0xF = 0) ∧
      (∀ r, r ≠ 0xF → t.getV r = s.getV r) ∧ t.draw = true ∧ t.pc = s.pc + 2 ∧
      KeepsExcept [.gfx, .v, .draw, .pc] s t

/-- R122 (decision D7): a DRW with a sprite byte outside memory halts on the lowest such address and changes nothing. -/
def Obligations.DrwOutsideMemoryHalts : Prop :=
  ∀ (x y n : Nibble) (s : State), ¬ s.InMemory n.toNat →
    ∃ t, exec (.drw x y n) s = .next t ∧
      HaltsWith (.invalidAddress .data (max s.i.toNat 0x1000)) (some (encode (.drw x y n))) s t

/-- R125 (derived there) and the draw property of 95_test_vectors.md E9: drawing the same sprite twice at the same place
restores the display; on a blank display the first draw gives VF = 0 and the second VF = 1 if the sprite has a 1 bit. (R125's
last sentence holds with E9's premise of a blank buffer: over set pixels the second draw may clear none.) -/
def Obligations.DrwTwiceRestoresDisplay : Prop :=
  ∀ (x y n : Nibble) (s : State), x ≠ 0xF → y ≠ 0xF → s.InMemory n.toNat →
    ∃ t u, exec (.drw x y n) s = .next t ∧ exec (.drw x y n) t = .next u ∧
      (∀ cx cy, u.gfx.pixel cx cy = s.gfx.pixel cx cy) ∧
      ((∀ cx cy, s.gfx.pixel cx cy = false) → t.getV 0xF = 0 ∧
        ((∃ cx cy, SpriteCovers s x y n cx cy) → u.getV 0xF = 1))

/-! ### Control transfer -/

/-- R140: RET with SP = 0 halts with StackUnderflow; otherwise SP falls by 1, PC is the entry it uncovers, and the entry is
not cleared. -/
def Obligations.RetPopsOrUnderflows : Prop :=
  ∀ (ign : Nibble) (s : State), encode (.ret 0) = 0x00EE ∧ decodeWord .lowByte (wordX 0x00EE ign) = some (.ret ign) ∧
    (s.sp = 0 → ∃ t, exec (.ret ign) s = .next t ∧ HaltsWith .stackUnderflow (some (encode (.ret ign))) s t) ∧
    (∀ k : Fin 16, s.sp.val = k.val + 1 → ∃ t, exec (.ret ign) s = .next t ∧
      t.sp.val = k.val ∧ t.pc = s.stack[k] ∧ KeepsExcept [.sp, .pc] s t)

/-- R141: JP to nnn below 0xFFF sets PC; JP to 0xFFF halts with InvalidAddress and changes nothing. -/
def Obligations.JpJumpsOrHalts : Prop :=
  ∀ (nnn : Addr) (s : State), encode (.jp nnn) = wordA 0x1000 nnn ∧
    (nnn.toNat < 4095 → ∃ t, exec (.jp nnn) s = .next t ∧ t.pc = nnn.setWidth 16 ∧ KeepsExcept [.pc] s t) ∧
    (nnn.toNat ≥ 4095 → ∃ t, exec (.jp nnn) s = .next t ∧
      HaltsWith (.invalidAddress .jump nnn.toNat) (some (encode (.jp nnn))) s t)

/-- R142 (the unchecked target: decision D5): CALL with SP = 16 halts with StackOverflow; otherwise it pushes PC + 2, adds
1 to SP and jumps. -/
def Obligations.CallPushesOrOverflows : Prop :=
  ∀ (nnn : Addr) (s : State), encode (.call nnn) = wordA 0x2000 nnn ∧
    (s.sp.val = 16 → ∃ t, exec (.call nnn) s = .next t ∧ HaltsWith .stackOverflow (some (encode (.call nnn))) s t) ∧
    (∀ k : Fin 16, s.sp.val = k.val → ∃ t, exec (.call nnn) s = .next t ∧
      t.sp.val = k.val + 1 ∧ t.stack[k] = s.pc + 2 ∧ (∀ j : Fin 16, j ≠ k → t.stack[j] = s.stack[j]) ∧
      t.pc = nnn.setWidth 16 ∧ KeepsExcept [.sp, .stack, .pc] s t)

/-- R143 (decision D6): JP V0 jumps to V0 + nnn when the sum is below 0xFFF, and halts with InvalidAddress otherwise. -/
def Obligations.JpV0JumpsOrHalts : Prop :=
  ∀ (nnn : Addr) (s : State), encode (.jpV0 nnn) = wordA 0xB000 nnn ∧
    ((s.getV 0).toNat + nnn.toNat < 4095 → ∃ t, exec (.jpV0 nnn) s = .next t ∧
      t.pc.toNat = (s.getV 0).toNat + nnn.toNat ∧ KeepsExcept [.pc] s t) ∧
    ((s.getV 0).toNat + nnn.toNat ≥ 4095 → ∃ t, exec (.jpV0 nnn) s = .next t ∧
      HaltsWith (.invalidAddress .jump ((s.getV 0).toNat + nnn.toNat)) (some (encode (.jpV0 nnn))) s t)

/-- R140 and R142 together (95_test_vectors.md E7, E13): a RET after a CALL comes back to the word after the CALL with SP as
before, and changes nothing but PC and the stack entry at SP, which holds the return address afterwards. -/
def Obligations.CallThenRetComesBack : Prop :=
  ∀ (nnn : Addr) (ign : Nibble) (s : State), s.sp.val < 16 →
    ∃ t u, exec (.call nnn) s = .next t ∧ exec (.ret ign) t = .next u ∧ u.pc = s.pc + 2 ∧ u.sp = s.sp ∧
      (∀ j : Fin 16, u.stack[j] = if j.val = s.sp.val then s.pc + 2 else s.stack[j]) ∧ KeepsExcept [.stack, .pc] s u

/-! ### Skips -/

/-- R160, R161: SE and SNE with a byte. -/
def Obligations.SkipsOnByte : Prop :=
  ∀ (x : Nibble) (kk : Byte) (s : State), encode (.seImm x kk) = wordXK 0x3000 x kk ∧
    encode (.sneImm x kk) = wordXK 0x4000 x kk ∧
    (∃ t, exec (.seImm x kk) s = .next t ∧ t.pc = (if s.getV x = kk then s.pc + 4 else s.pc + 2) ∧ KeepsExcept [.pc] s t) ∧
    (∃ t, exec (.sneImm x kk) s = .next t ∧ t.pc = (if s.getV x = kk then s.pc + 2 else s.pc + 4) ∧ KeepsExcept [.pc] s t)

/-- R162, R163: SE and SNE with a register; a word of the two groups whose function nibble is not 0 is Unknown. -/
def Obligations.SkipsOnRegister : Prop :=
  ∀ (x y : Nibble) (s : State), encode (.seReg x y) = wordXY 0x5000 x y ∧ encode (.sneReg x y) = wordXY 0x9000 x y ∧
    (∀ (m : ZeroGroupMask) (n : Nibble), n ≠ 0 → decodeWord m (wordXY 0x5000 x y ||| n.setWidth 16) = none ∧
      decodeWord m (wordXY 0x9000 x y ||| n.setWidth 16) = none) ∧
    (∃ t, exec (.seReg x y) s = .next t ∧ t.pc = (if s.getV x = s.getV y then s.pc + 4 else s.pc + 2) ∧
      KeepsExcept [.pc] s t) ∧
    (∃ t, exec (.sneReg x y) s = .next t ∧ t.pc = (if s.getV x = s.getV y then s.pc + 2 else s.pc + 4) ∧
      KeepsExcept [.pc] s t)

/-- R168, R169, R170 (the fault on an index above 0xF is decision D8): SKP and SKNP skip on the key V[x] of the snapshot; an
index above 0xF halts. R33, R108 step 2, R291 (when the snapshot is taken is decision D32): the snapshot is keys_in of the
tick itself, so a step that executes SKP or SKNP tests bit V[x] of that tick's keys_in, and after every instruction tick
outside Halted, with or without a quit, keys is keys_in. -/
def Obligations.SkipsOnKey : Prop :=
  ∀ (x : Nibble) (s : State), encode (.skp x) = wordX 0xE09E x ∧ encode (.sknp x) = wordX 0xE0A1 x ∧
    ((s.getV x).toNat ≤ 0xF →
      (∃ t, exec (.skp x) s = .next t ∧
        t.pc = (if s.keys.getLsbD (s.getV x).toNat then s.pc + 4 else s.pc + 2) ∧ KeepsExcept [.pc] s t) ∧
      (∃ t, exec (.sknp x) s = .next t ∧
        t.pc = (if s.keys.getLsbD (s.getV x).toNat then s.pc + 2 else s.pc + 4) ∧ KeepsExcept [.pc] s t)) ∧
    ((s.getV x).toNat > 0xF →
      (∃ t, exec (.skp x) s = .next t ∧ HaltsWith (.keyIndexOutOfRange (s.getV x)) (some (encode (.skp x))) s t) ∧
      (∃ t, exec (.sknp x) s = .next t ∧ HaltsWith (.keyIndexOutOfRange (s.getV x)) (some (encode (.sknp x))) s t)) ∧
    (∀ inp, s.InstrTickNext inp → s.mode = .running →
      s.pc.toNat ≤ 0xFFE → (s.cfg.lowGuard = false ∨ 0x200 ≤ s.pc.toNat) → (s.getV x).toNat ≤ 0xF →
      (decodeWord s.cfg.zeroGroupMask s.fetchWord = some (.skp x) → ∃ t, step s = .next t ∧
        t.pc = (if inp.keysIn.getLsbD (s.getV x).toNat then s.pc + 4 else s.pc + 2)) ∧
      (decodeWord s.cfg.zeroGroupMask s.fetchWord = some (.sknp x) → ∃ t, step s = .next t ∧
        t.pc = (if inp.keysIn.getLsbD (s.getV x).toNat then s.pc + 2 else s.pc + 4))) ∧
    (∀ inp, s.nextTick.1 = .instr inp → s.mode.isHalted = false → ∃ t, step s = .next t ∧ t.keys = inp.keysIn)

/-! ### Loads, arithmetic, logic -/

/-- R180, R181, R182: LD byte, ADD byte (the sum modulo 256, VF unchanged but as Vx), LD register. -/
def Obligations.LoadsAndAddByte : Prop :=
  ∀ (x y : Nibble) (kk : Byte) (s : State), encode (.ldImm x kk) = wordXK 0x6000 x kk ∧
    encode (.addImm x kk) = wordXK 0x7000 x kk ∧ encode (.ldReg x y) = wordXY 0x8000 x y ∧
    (∃ t, exec (.ldImm x kk) s = .next t ∧ (∀ r, t.getV r = if r = x then kk else s.getV r) ∧
      t.pc = s.pc + 2 ∧ KeepsExcept [.v, .pc] s t) ∧
    (∃ t, exec (.addImm x kk) s = .next t ∧
      (∀ r, (t.getV r).toNat = if r = x then ((s.getV x).toNat + kk.toNat) % 256 else (s.getV r).toNat) ∧
      t.pc = s.pc + 2 ∧ KeepsExcept [.v, .pc] s t) ∧
    (∃ t, exec (.ldReg x y) s = .next t ∧ (∀ r, t.getV r = if r = x then s.getV y else s.getV r) ∧
      t.pc = s.pc + 2 ∧ KeepsExcept [.v, .pc] s t)

/-- R183, R184, R185: OR, AND, XOR, bit by bit; VF is not reset. -/
def Obligations.LogicIsBitwise : Prop :=
  ∀ (x y : Nibble) (s : State), encode (.orReg x y) = wordXY 0x8001 x y ∧ encode (.andReg x y) = wordXY 0x8002 x y ∧
    encode (.xorReg x y) = wordXY 0x8003 x y ∧
    (∃ t, exec (.orReg x y) s = .next t ∧
      (∀ k, (t.getV x).getLsbD k = ((s.getV x).getLsbD k || (s.getV y).getLsbD k)) ∧
      (∀ r, r ≠ x → t.getV r = s.getV r) ∧ t.pc = s.pc + 2 ∧ KeepsExcept [.v, .pc] s t) ∧
    (∃ t, exec (.andReg x y) s = .next t ∧
      (∀ k, (t.getV x).getLsbD k = ((s.getV x).getLsbD k && (s.getV y).getLsbD k)) ∧
      (∀ r, r ≠ x → t.getV r = s.getV r) ∧ t.pc = s.pc + 2 ∧ KeepsExcept [.v, .pc] s t) ∧
    (∃ t, exec (.xorReg x y) s = .next t ∧
      (∀ k, (t.getV x).getLsbD k = ((s.getV x).getLsbD k ^^ (s.getV y).getLsbD k)) ∧
      (∀ r, r ≠ x → t.getV r = s.getV r) ∧ t.pc = s.pc + 2 ∧ KeepsExcept [.v, .pc] s t)

/-- R186, R193: ADD with carry; VF is the last register write, so it ends as the carry even when x = 0xF. -/
def Obligations.AddSetsCarry : Prop :=
  ∀ (x y : Nibble) (s : State), encode (.addReg x y) = wordXY 0x8004 x y ∧
    ∃ t, exec (.addReg x y) s = .next t ∧
      (∀ r, r ≠ 0xF → (t.getV r).toNat =
        if r = x then ((s.getV x).toNat + (s.getV y).toNat) % 256 else (s.getV r).toNat) ∧
      (t.getV 0xF).toNat = (if (s.getV x).toNat + (s.getV y).toNat > 255 then 1 else 0) ∧
      t.pc = s.pc + 2 ∧ KeepsExcept [.v, .pc] s t

/-- R187, R189, R193: SUB and SUBN; VF is 1 exactly when the minuend is strictly greater. -/
def Obligations.SubSetsStrictFlag : Prop :=
  ∀ (x y : Nibble) (s : State), encode (.subReg x y) = wordXY 0x8005 x y ∧ encode (.subnReg x y) = wordXY 0x8007 x y ∧
    (∃ t, exec (.subReg x y) s = .next t ∧
      (∀ r, r ≠ 0xF → (t.getV r).toNat =
        if r = x then ((s.getV x).toNat + 256 - (s.getV y).toNat) % 256 else (s.getV r).toNat) ∧
      (t.getV 0xF).toNat = (if (s.getV x).toNat > (s.getV y).toNat then 1 else 0) ∧
      t.pc = s.pc + 2 ∧ KeepsExcept [.v, .pc] s t) ∧
    (∃ t, exec (.subnReg x y) s = .next t ∧
      (∀ r, r ≠ 0xF → (t.getV r).toNat =
        if r = x then ((s.getV y).toNat + 256 - (s.getV x).toNat) % 256 else (s.getV r).toNat) ∧
      (t.getV 0xF).toNat = (if (s.getV y).toNat > (s.getV x).toNat then 1 else 0) ∧
      t.pc = s.pc + 2 ∧ KeepsExcept [.v, .pc] s t)

/-- R188, R190, R193: SHR and SHL by one bit of V[x]; the y field is not read; VF is the bit shifted out. -/
def Obligations.ShiftsSetBitShiftedOut : Prop :=
  ∀ (x y : Nibble) (s : State), encode (.shr x y) = wordXY 0x8006 x y ∧ encode (.shl x y) = wordXY 0x800E x y ∧
    (∃ t, exec (.shr x y) s = .next t ∧
      (∀ r, r ≠ 0xF → (t.getV r).toNat = if r = x then (s.getV x).toNat / 2 else (s.getV r).toNat) ∧
      (t.getV 0xF).toNat = (s.getV x).toNat % 2 ∧ t.pc = s.pc + 2 ∧ KeepsExcept [.v, .pc] s t) ∧
    (∃ t, exec (.shl x y) s = .next t ∧
      (∀ r, r ≠ 0xF → (t.getV r).toNat = if r = x then (s.getV x).toNat * 2 % 256 else (s.getV r).toNat) ∧
      (t.getV 0xF).toNat = (s.getV x).toNat / 128 ∧ t.pc = s.pc + 2 ∧ KeepsExcept [.v, .pc] s t)

/-- R191 and R108 (the byte is a free input, decision D25; the model latches it in `rand`, log 2): RND masks the random byte,
and a step that executes RND uses the rand_in of that very tick. -/
def Obligations.RndMasksRandomByteOfItsTick : Prop :=
  ∀ (x : Nibble) (kk : Byte) (s : State), encode (.rnd x kk) = wordXK 0xC000 x kk ∧
    (∃ t, exec (.rnd x kk) s = .next t ∧ (∀ r, t.getV r = if r = x then s.rand &&& kk else s.getV r) ∧
      t.pc = s.pc + 2 ∧ KeepsExcept [.v, .pc] s t) ∧
    ∀ inp, s.InstrTickNext inp → s.mode = .running →
      s.pc.toNat ≤ 0xFFE → (s.cfg.lowGuard = false ∨ 0x200 ≤ s.pc.toNat) →
      decodeWord s.cfg.zeroGroupMask s.fetchWord = some (.rnd x kk) →
      ∃ t, step s = .next t ∧ t.getV x = inp.randIn &&& kk

/-! ### The address register and memory -/

/-- R220: LD I. -/
def Obligations.LdISetsAddress : Prop :=
  ∀ (nnn : Addr) (s : State), encode (.ldI nnn) = wordA 0xA000 nnn ∧
    ∃ t, exec (.ldI nnn) s = .next t ∧ t.i = nnn.setWidth 16 ∧ t.pc = s.pc + 2 ∧ KeepsExcept [.i, .pc] s t

/-- R221 (the 16-bit wrap is decision D3, the variant D11): ADD I; VF is written only under FX1E_SETS_VF, last, and tells
whether the sum leaves the 12-bit range. -/
def Obligations.AddIWrapsAndMaySetVF : Prop :=
  ∀ (x : Nibble) (s : State), encode (.addIVx x) = wordX 0xF01E x ∧
    ∃ t, exec (.addIVx x) s = .next t ∧ t.i.toNat = (s.i.toNat + (s.getV x).toNat) % 65536 ∧
      (∀ r, r ≠ 0xF → t.getV r = s.getV r) ∧
      (s.cfg.fx1eSetsVF = false → t.getV 0xF = s.getV 0xF) ∧
      (s.cfg.fx1eSetsVF = true → t.getV 0xF = if s.i.toNat + (s.getV x).toNat > 0xFFF then 1 else 0) ∧
      t.pc = s.pc + 2 ∧ KeepsExcept [.i, .v, .pc] s t

/-- R222 (no mask: decision D9): LD F sets I to five times V[x]. -/
def Obligations.LdFPointsAtGlyph : Prop :=
  ∀ (x : Nibble) (s : State), encode (.ldFVx x) = wordX 0xF029 x ∧
    ∃ t, exec (.ldFVx x) s = .next t ∧ t.i.toNat = (s.getV x).toNat * 5 ∧ t.pc = s.pc + 2 ∧ KeepsExcept [.i, .pc] s t

/-- R223 (I unchanged: decision D10; the checks: D7, D13): LD B stores the three decimal digits of V[x] at I, I + 1, I + 2,
and no other byte changes. -/
def Obligations.LdBStoresDecimalDigits : Prop :=
  ∀ (x : Nibble) (s : State), encode (.ldBVx x) = wordX 0xF033 x ∧ (s.Writable 3 →
    ∃ t, exec (.ldBVx x) s = .next t ∧
      (t.readByte s.i.toNat).toNat = (s.getV x).toNat / 100 ∧
      (t.readByte (s.i.toNat + 1)).toNat = (s.getV x).toNat / 10 % 10 ∧
      (t.readByte (s.i.toNat + 2)).toNat = (s.getV x).toNat % 10 ∧
      (∀ a, (a < s.i.toNat ∨ s.i.toNat + 3 ≤ a) → t.readByte a = s.readByte a) ∧
      t.pc = s.pc + 2 ∧ KeepsExcept [.mem, .pc] s t)

/-- R224 (I unchanged: decision D10; the checks: D7, D13): LD [I] stores V0 .. Vx at I .. I + x, and no other byte changes. -/
def Obligations.LdMemStoresRegisters : Prop :=
  ∀ (x : Nibble) (s : State), encode (.ldMemVx x) = wordX 0xF055 x ∧ (s.Writable (x.toNat + 1) →
    ∃ t, exec (.ldMemVx x) s = .next t ∧
      (∀ r : Nibble, r.toNat ≤ x.toNat → t.readByte (s.i.toNat + r.toNat) = s.getV r) ∧
      (∀ a, (a < s.i.toNat ∨ s.i.toNat + x.toNat < a) → t.readByte a = s.readByte a) ∧
      t.pc = s.pc + 2 ∧ KeepsExcept [.mem, .pc] s t)

/-- R225 (I unchanged: decision D10; the check: D7): LD Vx, [I] loads V0 .. Vx from I .. I + x, also below 0x200 under
LOW_GUARD, and no other register changes. -/
def Obligations.LdVxMemLoadsRegisters : Prop :=
  ∀ (x : Nibble) (s : State), encode (.ldVxMem x) = wordX 0xF065 x ∧ (s.InMemory (x.toNat + 1) →
    ∃ t, exec (.ldVxMem x) s = .next t ∧
      (∀ r : Nibble, t.getV r = if r.toNat ≤ x.toNat then s.readByte (s.i.toNat + r.toNat) else s.getV r) ∧
      t.pc = s.pc + 2 ∧ KeepsExcept [.v, .pc] s t)

/-- R54 (decisions D7, D13, D33): a store or a load with an address outside memory, or a store below 0x200 under LOW_GUARD,
halts on the lowest failing address and has no effect at all. -/
def Obligations.BadTransferHaltsWithoutEffect : Prop :=
  ∀ (x : Nibble) (s : State),
    (¬ s.InMemory 3 → (s.cfg.lowGuard = false ∨ 0x200 ≤ s.i.toNat) → ∃ t, exec (.ldBVx x) s = .next t ∧
      HaltsWith (.invalidAddress .data (max s.i.toNat 0x1000)) (some (encode (.ldBVx x))) s t) ∧
    (¬ s.InMemory (x.toNat + 1) → (s.cfg.lowGuard = false ∨ 0x200 ≤ s.i.toNat) → ∃ t, exec (.ldMemVx x) s = .next t ∧
      HaltsWith (.invalidAddress .data (max s.i.toNat 0x1000)) (some (encode (.ldMemVx x))) s t) ∧
    (s.cfg.lowGuard = true → s.i.toNat < 0x200 →
      (∃ t, exec (.ldBVx x) s = .next t ∧
        HaltsWith (.protectedAddress .data s.i.toNat) (some (encode (.ldBVx x))) s t) ∧
      (∃ t, exec (.ldMemVx x) s = .next t ∧
        HaltsWith (.protectedAddress .data s.i.toNat) (some (encode (.ldMemVx x))) s t)) ∧
    (¬ s.InMemory (x.toNat + 1) → ∃ t, exec (.ldVxMem x) s = .next t ∧
      HaltsWith (.invalidAddress .data (max s.i.toNat 0x1000)) (some (encode (.ldVxMem x))) s t)

/-- R226 (derived there; the source's property of 95_test_vectors.md E2): Fx55, then any change of the registers, then
Fx65 with the same x and I, restores V0 .. Vx and leaves the other registers as they were changed to. -/
def Obligations.StoreThenLoadRestoresRegisters : Prop :=
  ∀ (x : Nibble) (s : State) (w : Vector Byte 16), s.Writable (x.toNat + 1) →
    ∃ t u, exec (.ldMemVx x) s = .next t ∧ exec (.ldVxMem x) { t with v := w } = .next u ∧
      (∀ r : Nibble, u.getV r = if r.toNat ≤ x.toNat then s.getV r else w[r.toNat]) ∧ u.i = s.i

/-! ### Timers and the key wait -/

/-- R250, R252, R253: the timer moves; the tone follows ST at once. -/
def Obligations.TimerMoves : Prop :=
  ∀ (x : Nibble) (s : State), encode (.ldVxDt x) = wordX 0xF007 x ∧ encode (.ldDtVx x) = wordX 0xF015 x ∧
    encode (.ldStVx x) = wordX 0xF018 x ∧
    (∃ t, exec (.ldVxDt x) s = .next t ∧ (∀ r, t.getV r = if r = x then s.dt else s.getV r) ∧ t.pc = s.pc + 2 ∧
      KeepsExcept [.v, .pc] s t) ∧
    (∃ t, exec (.ldDtVx x) s = .next t ∧ t.dt = s.getV x ∧ t.pc = s.pc + 2 ∧ KeepsExcept [.dt, .pc] s t) ∧
    (∃ t, exec (.ldStVx x) s = .next t ∧ t.st = s.getV x ∧ t.pc = s.pc + 2 ∧ KeepsExcept [.st, .pc] s t ∧
      (s.mode.isHalted = false → t.toneOut = decide ((s.getV x).toNat > 0)))

/-- R251 (details: decision D20): LD Vx, K suspends the driver with the target register and changes nothing else; PC stays. -/
def Obligations.LdKSuspends : Prop :=
  ∀ (x : Nibble) (s : State), encode (.ldVxK x) = wordX 0xF00A x ∧
    ∃ t, exec (.ldVxK x) s = .next t ∧ t.mode = .waitingForKey x ∧ KeepsExcept [.mode] s t

/-- R254, R299 (derived there) and R285 (that the wait goes on without a key-down event, whatever keys are held, rests on
decision D20, log 17): through any schedule without a key-down event and without a quit, the wait goes on:
only the timers fall, by one for each timer tick of the schedule and never below 0, and only the keypad is latched. R286
(decision D18): through any admitted schedule of that kind both timers are 0 after finitely many ticks, and still the wait
goes on. -/
def Obligations.WaitingOnlyTimersFall : Prop :=
  (∀ (ts more : List Tick) (s : State) (x : Nibble), s.mode = .waitingForKey x → s.DrawOk → s.ticks = ts ++ more →
    (∀ inp, Tick.instr inp ∈ ts → inp.keydownIn = [] ∧ inp.quitIn = false) →
    ∃ t : State, Host.Core.run Sys2Proof.core ts.length s = .next t ∧ t.ticks = more ∧
      t.dt.toNat = s.dt.toNat - timerCount ts ∧ t.st.toNat = s.st.toNat - timerCount ts ∧
      KeepsExcept [.dt, .st, .keys, .rand, .ticks, .frameOut, .reportOut, .haltOut] s t) ∧
  (∀ f : Nat → Tick, WeaklyFair f → (∀ j inp, f j = .instr inp → inp.keydownIn = [] ∧ inp.quitIn = false) →
    ∃ k, ∀ (s : State) (x : Nibble) (more : List Tick), s.mode = .waitingForKey x → s.DrawOk →
      s.ticks = (List.range k).map f ++ more →
      ∃ t : State, Host.Core.run Sys2Proof.core k s = .next t ∧ t.mode = .waitingForKey x ∧ t.dt = 0 ∧ t.st = 0)

/-- R286 (decision D18): the reference schedule puts exactly one timer tick after every n-th instruction tick and before the
next: fewer than n instruction ticks have none, and after n of them stands one timer tick and then the reference schedule of
the rest. So it keeps the instruction ticks in order and holds as many timer ticks as n goes into their number. The
admitted schedules are the weakly fair ones, and the free schedule of the model (log 1) ranges over exactly these: whatever
its free values are it is weakly fair, and every weakly fair schedule is the free one for some of them. -/
def Obligations.ReferenceScheduleHasOneTimerTickPerN : Prop :=
  (∀ (n : Nat) (ins : List TickInput), 0 < n →
    (ins.length < n → referenceSchedule n ins = ins.map Tick.instr) ∧
    (∀ a b, ins = a ++ b → a.length = n →
      referenceSchedule n ins = a.map Tick.instr ++ Tick.timer :: referenceSchedule n b) ∧
    timerCount (referenceSchedule n ins) = ins.length / n ∧
    instrInputs (referenceSchedule n ins) = ins) ∧
  (∀ gap raw inp, WeaklyFair (fairTick gap raw inp)) ∧
  (∀ f, WeaklyFair f → ∃ gap raw inp, ∀ k, fairTick gap raw inp k = f k)
end

