-- ==== Sys2Proof/Laws/Decode.lean ====
section
/-! SUPPORT. The fields of the words that the encoder builds: each field comes back as it went in. -/

namespace Sys2Proof

/-- The fields of a word `g x y n`. -/
theorem fields_append4 (g x y n : Nibble) :
    fieldG (g ++ x ++ y ++ n) = g ∧ fieldX (g ++ x ++ y ++ n) = x ∧ fieldY (g ++ x ++ y ++ n) = y ∧
      fieldN (g ++ x ++ y ++ n) = n := by
  simp only [fieldG, fieldX, fieldY, fieldN]
  refine ⟨?_, ?_, ?_, ?_⟩ <;>
  · apply BitVec.eq_of_getLsbD_eq
    intro k hk
    simp only [BitVec.getLsbD_extractLsb', BitVec.getLsbD_append, hk, decide_true, Bool.true_and]
    repeat' split
    all_goals first | omega | (congr 1; omega)

/-- The fields of a word `g x kk`. -/
theorem fields_append3 (g x : Nibble) (kk : Byte) :
    fieldG (g ++ x ++ kk) = g ∧ fieldX (g ++ x ++ kk) = x ∧ fieldKK (g ++ x ++ kk) = kk := by
  simp only [fieldG, fieldX, fieldKK]
  refine ⟨?_, ?_, ?_⟩ <;>
  · apply BitVec.eq_of_getLsbD_eq
    intro k hk
    simp only [BitVec.getLsbD_extractLsb', BitVec.getLsbD_append, hk, decide_true, Bool.true_and]
    repeat' split
    all_goals first | omega | (congr 1; omega)

/-- The fields of a word `g nnn`. -/
theorem fields_append2 (g : Nibble) (nnn : Addr) :
    fieldG (g ++ nnn) = g ∧ fieldNNN (g ++ nnn) = nnn := by
  simp only [fieldG, fieldNNN]
  refine ⟨?_, ?_⟩ <;>
  · apply BitVec.eq_of_getLsbD_eq
    intro k hk
    simp only [BitVec.getLsbD_extractLsb', BitVec.getLsbD_append, hk, decide_true, Bool.true_and]
    repeat' split
    all_goals first | omega | (congr 1; omega)

/-- A word is its four nibbles. -/
theorem word_eq_append4 (op : Word) : op = fieldG op ++ fieldX op ++ fieldY op ++ fieldN op := by
  simp only [fieldG, fieldX, fieldY, fieldN]
  apply BitVec.eq_of_getLsbD_eq
  intro k hk
  simp only [BitVec.getLsbD_extractLsb', BitVec.getLsbD_append]
  repeat' split
  all_goals (rw [decide_eq_true (by omega), Bool.true_and]; congr 1; omega)

/-- A word is its group, x and kk. -/
theorem word_eq_append3 (op : Word) : op = fieldG op ++ fieldX op ++ fieldKK op := by
  simp only [fieldG, fieldX, fieldKK]
  apply BitVec.eq_of_getLsbD_eq
  intro k hk
  simp only [BitVec.getLsbD_extractLsb', BitVec.getLsbD_append]
  repeat' split
  all_goals (rw [decide_eq_true (by omega), Bool.true_and]; congr 1; omega)

/-- A word is its group and nnn. -/
theorem word_eq_append2 (op : Word) : op = fieldG op ++ fieldNNN op := by
  simp only [fieldG, fieldNNN]
  apply BitVec.eq_of_getLsbD_eq
  intro k hk
  simp only [BitVec.getLsbD_extractLsb', BitVec.getLsbD_append]
  repeat' split
  all_goals (rw [decide_eq_true (by omega), Bool.true_and]; congr 1; omega)

/-- The two bytes of a word put together again (20_memory.md R51). -/
theorem wordOfBytes_hi_lo (w : Word) : wordOfBytes (hiByte w) (loByte w) = w := by
  simp only [wordOfBytes, hiByte, loByte]
  apply BitVec.eq_of_getLsbD_eq
  intro k hk
  simp only [BitVec.getLsbD_extractLsb', BitVec.getLsbD_append]
  split
  all_goals (rw [decide_eq_true (by omega), Bool.true_and]; congr 1; omega)

/-- What the decoder answers on two bytes and more: the decoding of their word. -/
theorem decode_cons (m : ZeroGroupMask) (hi lo : Byte) (rest : List Byte) :
    decode m (hi :: lo :: rest) =
      match decodeWord m (wordOfBytes hi lo) with
      | some i => .instr i rest
      | none => .unknown (wordOfBytes hi lo) rest := rfl

end Sys2Proof
end

