-- ==== Sys2Proof/Laws/State.lean ====
section
/-! SUPPORT. What each update of the state leaves in each field: one lemma for each field and each update, so that no proof unfolds a record update. -/

namespace Sys2Proof.Machine

open Sys2Proof

/-! ### writeByte -/

@[simp] theorem State.writeByte_mem (s : State) (a : Nat) (b : Byte) : (s.writeByte a b).mem = Memory.write (Memory.unlisted s.cfg) s.mem a b := rfl
@[simp] theorem State.writeByte_v (s : State) (a : Nat) (b : Byte) : (s.writeByte a b).v = s.v := rfl
@[simp] theorem State.writeByte_i (s : State) (a : Nat) (b : Byte) : (s.writeByte a b).i = s.i := rfl
@[simp] theorem State.writeByte_pc (s : State) (a : Nat) (b : Byte) : (s.writeByte a b).pc = s.pc := rfl
@[simp] theorem State.writeByte_sp (s : State) (a : Nat) (b : Byte) : (s.writeByte a b).sp = s.sp := rfl
@[simp] theorem State.writeByte_stack (s : State) (a : Nat) (b : Byte) : (s.writeByte a b).stack = s.stack := rfl
@[simp] theorem State.writeByte_dt (s : State) (a : Nat) (b : Byte) : (s.writeByte a b).dt = s.dt := rfl
@[simp] theorem State.writeByte_st (s : State) (a : Nat) (b : Byte) : (s.writeByte a b).st = s.st := rfl
@[simp] theorem State.writeByte_gfx (s : State) (a : Nat) (b : Byte) : (s.writeByte a b).gfx = s.gfx := rfl
@[simp] theorem State.writeByte_draw (s : State) (a : Nat) (b : Byte) : (s.writeByte a b).draw = s.draw := rfl
@[simp] theorem State.writeByte_keys (s : State) (a : Nat) (b : Byte) : (s.writeByte a b).keys = s.keys := rfl
@[simp] theorem State.writeByte_mode (s : State) (a : Nat) (b : Byte) : (s.writeByte a b).mode = s.mode := rfl
@[simp] theorem State.writeByte_cfg (s : State) (a : Nat) (b : Byte) : (s.writeByte a b).cfg = s.cfg := rfl
@[simp] theorem State.writeByte_rand (s : State) (a : Nat) (b : Byte) : (s.writeByte a b).rand = s.rand := rfl
@[simp] theorem State.writeByte_ticks (s : State) (a : Nat) (b : Byte) : (s.writeByte a b).ticks = s.ticks := rfl
@[simp] theorem State.writeByte_drawn (s : State) (a : Nat) (b : Byte) : (s.writeByte a b).drawn = s.drawn := rfl
@[simp] theorem State.writeByte_frameOut (s : State) (a : Nat) (b : Byte) : (s.writeByte a b).frameOut = s.frameOut := rfl
@[simp] theorem State.writeByte_reportOut (s : State) (a : Nat) (b : Byte) : (s.writeByte a b).reportOut = s.reportOut := rfl
@[simp] theorem State.writeByte_haltOut (s : State) (a : Nat) (b : Byte) : (s.writeByte a b).haltOut = s.haltOut := rfl
@[simp] theorem State.writeByte_getV (s : State) (a : Nat) (b : Byte) (y : Nibble) : (s.writeByte a b).getV y = s.getV y := rfl

/-! ### setV -/

@[simp] theorem State.setV_mem (s : State) (x : Nibble) (b : Byte) : (s.setV x b).mem = s.mem := rfl
@[simp] theorem State.setV_v (s : State) (x : Nibble) (b : Byte) : (s.setV x b).v = s.v.set x.toNat b := rfl
@[simp] theorem State.setV_i (s : State) (x : Nibble) (b : Byte) : (s.setV x b).i = s.i := rfl
@[simp] theorem State.setV_pc (s : State) (x : Nibble) (b : Byte) : (s.setV x b).pc = s.pc := rfl
@[simp] theorem State.setV_sp (s : State) (x : Nibble) (b : Byte) : (s.setV x b).sp = s.sp := rfl
@[simp] theorem State.setV_stack (s : State) (x : Nibble) (b : Byte) : (s.setV x b).stack = s.stack := rfl
@[simp] theorem State.setV_dt (s : State) (x : Nibble) (b : Byte) : (s.setV x b).dt = s.dt := rfl
@[simp] theorem State.setV_st (s : State) (x : Nibble) (b : Byte) : (s.setV x b).st = s.st := rfl
@[simp] theorem State.setV_gfx (s : State) (x : Nibble) (b : Byte) : (s.setV x b).gfx = s.gfx := rfl
@[simp] theorem State.setV_draw (s : State) (x : Nibble) (b : Byte) : (s.setV x b).draw = s.draw := rfl
@[simp] theorem State.setV_keys (s : State) (x : Nibble) (b : Byte) : (s.setV x b).keys = s.keys := rfl
@[simp] theorem State.setV_mode (s : State) (x : Nibble) (b : Byte) : (s.setV x b).mode = s.mode := rfl
@[simp] theorem State.setV_cfg (s : State) (x : Nibble) (b : Byte) : (s.setV x b).cfg = s.cfg := rfl
@[simp] theorem State.setV_rand (s : State) (x : Nibble) (b : Byte) : (s.setV x b).rand = s.rand := rfl
@[simp] theorem State.setV_ticks (s : State) (x : Nibble) (b : Byte) : (s.setV x b).ticks = s.ticks := rfl
@[simp] theorem State.setV_drawn (s : State) (x : Nibble) (b : Byte) : (s.setV x b).drawn = s.drawn := rfl
@[simp] theorem State.setV_frameOut (s : State) (x : Nibble) (b : Byte) : (s.setV x b).frameOut = s.frameOut := rfl
@[simp] theorem State.setV_reportOut (s : State) (x : Nibble) (b : Byte) : (s.setV x b).reportOut = s.reportOut := rfl
@[simp] theorem State.setV_haltOut (s : State) (x : Nibble) (b : Byte) : (s.setV x b).haltOut = s.haltOut := rfl
@[simp] theorem State.setV_readByte (s : State) (x : Nibble) (b : Byte) (c : Nat) : (s.setV x b).readByte c = s.readByte c := rfl

/-! ### setI -/

@[simp] theorem State.setI_mem (s : State) (w : Word) : (s.setI w).mem = s.mem := rfl
@[simp] theorem State.setI_v (s : State) (w : Word) : (s.setI w).v = s.v := rfl
@[simp] theorem State.setI_i (s : State) (w : Word) : (s.setI w).i = w := rfl
@[simp] theorem State.setI_pc (s : State) (w : Word) : (s.setI w).pc = s.pc := rfl
@[simp] theorem State.setI_sp (s : State) (w : Word) : (s.setI w).sp = s.sp := rfl
@[simp] theorem State.setI_stack (s : State) (w : Word) : (s.setI w).stack = s.stack := rfl
@[simp] theorem State.setI_dt (s : State) (w : Word) : (s.setI w).dt = s.dt := rfl
@[simp] theorem State.setI_st (s : State) (w : Word) : (s.setI w).st = s.st := rfl
@[simp] theorem State.setI_gfx (s : State) (w : Word) : (s.setI w).gfx = s.gfx := rfl
@[simp] theorem State.setI_draw (s : State) (w : Word) : (s.setI w).draw = s.draw := rfl
@[simp] theorem State.setI_keys (s : State) (w : Word) : (s.setI w).keys = s.keys := rfl
@[simp] theorem State.setI_mode (s : State) (w : Word) : (s.setI w).mode = s.mode := rfl
@[simp] theorem State.setI_cfg (s : State) (w : Word) : (s.setI w).cfg = s.cfg := rfl
@[simp] theorem State.setI_rand (s : State) (w : Word) : (s.setI w).rand = s.rand := rfl
@[simp] theorem State.setI_ticks (s : State) (w : Word) : (s.setI w).ticks = s.ticks := rfl
@[simp] theorem State.setI_drawn (s : State) (w : Word) : (s.setI w).drawn = s.drawn := rfl
@[simp] theorem State.setI_frameOut (s : State) (w : Word) : (s.setI w).frameOut = s.frameOut := rfl
@[simp] theorem State.setI_reportOut (s : State) (w : Word) : (s.setI w).reportOut = s.reportOut := rfl
@[simp] theorem State.setI_haltOut (s : State) (w : Word) : (s.setI w).haltOut = s.haltOut := rfl
@[simp] theorem State.setI_getV (s : State) (w : Word) (y : Nibble) : (s.setI w).getV y = s.getV y := rfl
@[simp] theorem State.setI_readByte (s : State) (w : Word) (c : Nat) : (s.setI w).readByte c = s.readByte c := rfl

/-! ### setPc -/

@[simp] theorem State.setPc_mem (s : State) (w : Word) : (s.setPc w).mem = s.mem := rfl
@[simp] theorem State.setPc_v (s : State) (w : Word) : (s.setPc w).v = s.v := rfl
@[simp] theorem State.setPc_i (s : State) (w : Word) : (s.setPc w).i = s.i := rfl
@[simp] theorem State.setPc_pc (s : State) (w : Word) : (s.setPc w).pc = w := rfl
@[simp] theorem State.setPc_sp (s : State) (w : Word) : (s.setPc w).sp = s.sp := rfl
@[simp] theorem State.setPc_stack (s : State) (w : Word) : (s.setPc w).stack = s.stack := rfl
@[simp] theorem State.setPc_dt (s : State) (w : Word) : (s.setPc w).dt = s.dt := rfl
@[simp] theorem State.setPc_st (s : State) (w : Word) : (s.setPc w).st = s.st := rfl
@[simp] theorem State.setPc_gfx (s : State) (w : Word) : (s.setPc w).gfx = s.gfx := rfl
@[simp] theorem State.setPc_draw (s : State) (w : Word) : (s.setPc w).draw = s.draw := rfl
@[simp] theorem State.setPc_keys (s : State) (w : Word) : (s.setPc w).keys = s.keys := rfl
@[simp] theorem State.setPc_mode (s : State) (w : Word) : (s.setPc w).mode = s.mode := rfl
@[simp] theorem State.setPc_cfg (s : State) (w : Word) : (s.setPc w).cfg = s.cfg := rfl
@[simp] theorem State.setPc_rand (s : State) (w : Word) : (s.setPc w).rand = s.rand := rfl
@[simp] theorem State.setPc_ticks (s : State) (w : Word) : (s.setPc w).ticks = s.ticks := rfl
@[simp] theorem State.setPc_drawn (s : State) (w : Word) : (s.setPc w).drawn = s.drawn := rfl
@[simp] theorem State.setPc_frameOut (s : State) (w : Word) : (s.setPc w).frameOut = s.frameOut := rfl
@[simp] theorem State.setPc_reportOut (s : State) (w : Word) : (s.setPc w).reportOut = s.reportOut := rfl
@[simp] theorem State.setPc_haltOut (s : State) (w : Word) : (s.setPc w).haltOut = s.haltOut := rfl
@[simp] theorem State.setPc_getV (s : State) (w : Word) (y : Nibble) : (s.setPc w).getV y = s.getV y := rfl
@[simp] theorem State.setPc_readByte (s : State) (w : Word) (c : Nat) : (s.setPc w).readByte c = s.readByte c := rfl

/-! ### setDt -/

@[simp] theorem State.setDt_mem (s : State) (b : Byte) : (s.setDt b).mem = s.mem := rfl
@[simp] theorem State.setDt_v (s : State) (b : Byte) : (s.setDt b).v = s.v := rfl
@[simp] theorem State.setDt_i (s : State) (b : Byte) : (s.setDt b).i = s.i := rfl
@[simp] theorem State.setDt_pc (s : State) (b : Byte) : (s.setDt b).pc = s.pc := rfl
@[simp] theorem State.setDt_sp (s : State) (b : Byte) : (s.setDt b).sp = s.sp := rfl
@[simp] theorem State.setDt_stack (s : State) (b : Byte) : (s.setDt b).stack = s.stack := rfl
@[simp] theorem State.setDt_dt (s : State) (b : Byte) : (s.setDt b).dt = b := rfl
@[simp] theorem State.setDt_st (s : State) (b : Byte) : (s.setDt b).st = s.st := rfl
@[simp] theorem State.setDt_gfx (s : State) (b : Byte) : (s.setDt b).gfx = s.gfx := rfl
@[simp] theorem State.setDt_draw (s : State) (b : Byte) : (s.setDt b).draw = s.draw := rfl
@[simp] theorem State.setDt_keys (s : State) (b : Byte) : (s.setDt b).keys = s.keys := rfl
@[simp] theorem State.setDt_mode (s : State) (b : Byte) : (s.setDt b).mode = s.mode := rfl
@[simp] theorem State.setDt_cfg (s : State) (b : Byte) : (s.setDt b).cfg = s.cfg := rfl
@[simp] theorem State.setDt_rand (s : State) (b : Byte) : (s.setDt b).rand = s.rand := rfl
@[simp] theorem State.setDt_ticks (s : State) (b : Byte) : (s.setDt b).ticks = s.ticks := rfl
@[simp] theorem State.setDt_drawn (s : State) (b : Byte) : (s.setDt b).drawn = s.drawn := rfl
@[simp] theorem State.setDt_frameOut (s : State) (b : Byte) : (s.setDt b).frameOut = s.frameOut := rfl
@[simp] theorem State.setDt_reportOut (s : State) (b : Byte) : (s.setDt b).reportOut = s.reportOut := rfl
@[simp] theorem State.setDt_haltOut (s : State) (b : Byte) : (s.setDt b).haltOut = s.haltOut := rfl
@[simp] theorem State.setDt_getV (s : State) (b : Byte) (y : Nibble) : (s.setDt b).getV y = s.getV y := rfl
@[simp] theorem State.setDt_readByte (s : State) (b : Byte) (c : Nat) : (s.setDt b).readByte c = s.readByte c := rfl

/-! ### setSt -/

@[simp] theorem State.setSt_mem (s : State) (b : Byte) : (s.setSt b).mem = s.mem := rfl
@[simp] theorem State.setSt_v (s : State) (b : Byte) : (s.setSt b).v = s.v := rfl
@[simp] theorem State.setSt_i (s : State) (b : Byte) : (s.setSt b).i = s.i := rfl
@[simp] theorem State.setSt_pc (s : State) (b : Byte) : (s.setSt b).pc = s.pc := rfl
@[simp] theorem State.setSt_sp (s : State) (b : Byte) : (s.setSt b).sp = s.sp := rfl
@[simp] theorem State.setSt_stack (s : State) (b : Byte) : (s.setSt b).stack = s.stack := rfl
@[simp] theorem State.setSt_dt (s : State) (b : Byte) : (s.setSt b).dt = s.dt := rfl
@[simp] theorem State.setSt_st (s : State) (b : Byte) : (s.setSt b).st = b := rfl
@[simp] theorem State.setSt_gfx (s : State) (b : Byte) : (s.setSt b).gfx = s.gfx := rfl
@[simp] theorem State.setSt_draw (s : State) (b : Byte) : (s.setSt b).draw = s.draw := rfl
@[simp] theorem State.setSt_keys (s : State) (b : Byte) : (s.setSt b).keys = s.keys := rfl
@[simp] theorem State.setSt_mode (s : State) (b : Byte) : (s.setSt b).mode = s.mode := rfl
@[simp] theorem State.setSt_cfg (s : State) (b : Byte) : (s.setSt b).cfg = s.cfg := rfl
@[simp] theorem State.setSt_rand (s : State) (b : Byte) : (s.setSt b).rand = s.rand := rfl
@[simp] theorem State.setSt_ticks (s : State) (b : Byte) : (s.setSt b).ticks = s.ticks := rfl
@[simp] theorem State.setSt_drawn (s : State) (b : Byte) : (s.setSt b).drawn = s.drawn := rfl
@[simp] theorem State.setSt_frameOut (s : State) (b : Byte) : (s.setSt b).frameOut = s.frameOut := rfl
@[simp] theorem State.setSt_reportOut (s : State) (b : Byte) : (s.setSt b).reportOut = s.reportOut := rfl
@[simp] theorem State.setSt_haltOut (s : State) (b : Byte) : (s.setSt b).haltOut = s.haltOut := rfl
@[simp] theorem State.setSt_getV (s : State) (b : Byte) (y : Nibble) : (s.setSt b).getV y = s.getV y := rfl
@[simp] theorem State.setSt_readByte (s : State) (b : Byte) (c : Nat) : (s.setSt b).readByte c = s.readByte c := rfl

/-! ### setGfx -/

@[simp] theorem State.setGfx_mem (s : State) (g : Gfx) : (s.setGfx g).mem = s.mem := rfl
@[simp] theorem State.setGfx_v (s : State) (g : Gfx) : (s.setGfx g).v = s.v := rfl
@[simp] theorem State.setGfx_i (s : State) (g : Gfx) : (s.setGfx g).i = s.i := rfl
@[simp] theorem State.setGfx_pc (s : State) (g : Gfx) : (s.setGfx g).pc = s.pc := rfl
@[simp] theorem State.setGfx_sp (s : State) (g : Gfx) : (s.setGfx g).sp = s.sp := rfl
@[simp] theorem State.setGfx_stack (s : State) (g : Gfx) : (s.setGfx g).stack = s.stack := rfl
@[simp] theorem State.setGfx_dt (s : State) (g : Gfx) : (s.setGfx g).dt = s.dt := rfl
@[simp] theorem State.setGfx_st (s : State) (g : Gfx) : (s.setGfx g).st = s.st := rfl
@[simp] theorem State.setGfx_gfx (s : State) (g : Gfx) : (s.setGfx g).gfx = g := rfl
@[simp] theorem State.setGfx_draw (s : State) (g : Gfx) : (s.setGfx g).draw = s.draw := rfl
@[simp] theorem State.setGfx_keys (s : State) (g : Gfx) : (s.setGfx g).keys = s.keys := rfl
@[simp] theorem State.setGfx_mode (s : State) (g : Gfx) : (s.setGfx g).mode = s.mode := rfl
@[simp] theorem State.setGfx_cfg (s : State) (g : Gfx) : (s.setGfx g).cfg = s.cfg := rfl
@[simp] theorem State.setGfx_rand (s : State) (g : Gfx) : (s.setGfx g).rand = s.rand := rfl
@[simp] theorem State.setGfx_ticks (s : State) (g : Gfx) : (s.setGfx g).ticks = s.ticks := rfl
@[simp] theorem State.setGfx_drawn (s : State) (g : Gfx) : (s.setGfx g).drawn = s.drawn := rfl
@[simp] theorem State.setGfx_frameOut (s : State) (g : Gfx) : (s.setGfx g).frameOut = s.frameOut := rfl
@[simp] theorem State.setGfx_reportOut (s : State) (g : Gfx) : (s.setGfx g).reportOut = s.reportOut := rfl
@[simp] theorem State.setGfx_haltOut (s : State) (g : Gfx) : (s.setGfx g).haltOut = s.haltOut := rfl
@[simp] theorem State.setGfx_getV (s : State) (g : Gfx) (y : Nibble) : (s.setGfx g).getV y = s.getV y := rfl
@[simp] theorem State.setGfx_readByte (s : State) (g : Gfx) (c : Nat) : (s.setGfx g).readByte c = s.readByte c := rfl

/-! ### setDraw -/

@[simp] theorem State.setDraw_mem (s : State) (b : Bool) : (s.setDraw b).mem = s.mem := rfl
@[simp] theorem State.setDraw_v (s : State) (b : Bool) : (s.setDraw b).v = s.v := rfl
@[simp] theorem State.setDraw_i (s : State) (b : Bool) : (s.setDraw b).i = s.i := rfl
@[simp] theorem State.setDraw_pc (s : State) (b : Bool) : (s.setDraw b).pc = s.pc := rfl
@[simp] theorem State.setDraw_sp (s : State) (b : Bool) : (s.setDraw b).sp = s.sp := rfl
@[simp] theorem State.setDraw_stack (s : State) (b : Bool) : (s.setDraw b).stack = s.stack := rfl
@[simp] theorem State.setDraw_dt (s : State) (b : Bool) : (s.setDraw b).dt = s.dt := rfl
@[simp] theorem State.setDraw_st (s : State) (b : Bool) : (s.setDraw b).st = s.st := rfl
@[simp] theorem State.setDraw_gfx (s : State) (b : Bool) : (s.setDraw b).gfx = s.gfx := rfl
@[simp] theorem State.setDraw_draw (s : State) (b : Bool) : (s.setDraw b).draw = b := rfl
@[simp] theorem State.setDraw_keys (s : State) (b : Bool) : (s.setDraw b).keys = s.keys := rfl
@[simp] theorem State.setDraw_mode (s : State) (b : Bool) : (s.setDraw b).mode = s.mode := rfl
@[simp] theorem State.setDraw_cfg (s : State) (b : Bool) : (s.setDraw b).cfg = s.cfg := rfl
@[simp] theorem State.setDraw_rand (s : State) (b : Bool) : (s.setDraw b).rand = s.rand := rfl
@[simp] theorem State.setDraw_ticks (s : State) (b : Bool) : (s.setDraw b).ticks = s.ticks := rfl
@[simp] theorem State.setDraw_drawn (s : State) (b : Bool) : (s.setDraw b).drawn = s.drawn := rfl
@[simp] theorem State.setDraw_frameOut (s : State) (b : Bool) : (s.setDraw b).frameOut = s.frameOut := rfl
@[simp] theorem State.setDraw_reportOut (s : State) (b : Bool) : (s.setDraw b).reportOut = s.reportOut := rfl
@[simp] theorem State.setDraw_haltOut (s : State) (b : Bool) : (s.setDraw b).haltOut = s.haltOut := rfl
@[simp] theorem State.setDraw_getV (s : State) (b : Bool) (y : Nibble) : (s.setDraw b).getV y = s.getV y := rfl
@[simp] theorem State.setDraw_readByte (s : State) (b : Bool) (c : Nat) : (s.setDraw b).readByte c = s.readByte c := rfl

/-! ### setMode -/

@[simp] theorem State.setMode_mem (s : State) (m : Mode) : (s.setMode m).mem = s.mem := rfl
@[simp] theorem State.setMode_v (s : State) (m : Mode) : (s.setMode m).v = s.v := rfl
@[simp] theorem State.setMode_i (s : State) (m : Mode) : (s.setMode m).i = s.i := rfl
@[simp] theorem State.setMode_pc (s : State) (m : Mode) : (s.setMode m).pc = s.pc := rfl
@[simp] theorem State.setMode_sp (s : State) (m : Mode) : (s.setMode m).sp = s.sp := rfl
@[simp] theorem State.setMode_stack (s : State) (m : Mode) : (s.setMode m).stack = s.stack := rfl
@[simp] theorem State.setMode_dt (s : State) (m : Mode) : (s.setMode m).dt = s.dt := rfl
@[simp] theorem State.setMode_st (s : State) (m : Mode) : (s.setMode m).st = s.st := rfl
@[simp] theorem State.setMode_gfx (s : State) (m : Mode) : (s.setMode m).gfx = s.gfx := rfl
@[simp] theorem State.setMode_draw (s : State) (m : Mode) : (s.setMode m).draw = s.draw := rfl
@[simp] theorem State.setMode_keys (s : State) (m : Mode) : (s.setMode m).keys = s.keys := rfl
@[simp] theorem State.setMode_mode (s : State) (m : Mode) : (s.setMode m).mode = m := rfl
@[simp] theorem State.setMode_cfg (s : State) (m : Mode) : (s.setMode m).cfg = s.cfg := rfl
@[simp] theorem State.setMode_rand (s : State) (m : Mode) : (s.setMode m).rand = s.rand := rfl
@[simp] theorem State.setMode_ticks (s : State) (m : Mode) : (s.setMode m).ticks = s.ticks := rfl
@[simp] theorem State.setMode_drawn (s : State) (m : Mode) : (s.setMode m).drawn = s.drawn := rfl
@[simp] theorem State.setMode_frameOut (s : State) (m : Mode) : (s.setMode m).frameOut = s.frameOut := rfl
@[simp] theorem State.setMode_reportOut (s : State) (m : Mode) : (s.setMode m).reportOut = s.reportOut := rfl
@[simp] theorem State.setMode_haltOut (s : State) (m : Mode) : (s.setMode m).haltOut = s.haltOut := rfl
@[simp] theorem State.setMode_getV (s : State) (m : Mode) (y : Nibble) : (s.setMode m).getV y = s.getV y := rfl
@[simp] theorem State.setMode_readByte (s : State) (m : Mode) (c : Nat) : (s.setMode m).readByte c = s.readByte c := rfl

/-! ### enterHalt -/

@[simp] theorem State.enterHalt_mem (s : State) (r : HaltReason) (op : Option Word) : (s.enterHalt r op).mem = s.mem := rfl
@[simp] theorem State.enterHalt_v (s : State) (r : HaltReason) (op : Option Word) : (s.enterHalt r op).v = s.v := rfl
@[simp] theorem State.enterHalt_i (s : State) (r : HaltReason) (op : Option Word) : (s.enterHalt r op).i = s.i := rfl
@[simp] theorem State.enterHalt_pc (s : State) (r : HaltReason) (op : Option Word) : (s.enterHalt r op).pc = s.pc := rfl
@[simp] theorem State.enterHalt_sp (s : State) (r : HaltReason) (op : Option Word) : (s.enterHalt r op).sp = s.sp := rfl
@[simp] theorem State.enterHalt_stack (s : State) (r : HaltReason) (op : Option Word) : (s.enterHalt r op).stack = s.stack := rfl
@[simp] theorem State.enterHalt_dt (s : State) (r : HaltReason) (op : Option Word) : (s.enterHalt r op).dt = s.dt := rfl
@[simp] theorem State.enterHalt_st (s : State) (r : HaltReason) (op : Option Word) : (s.enterHalt r op).st = s.st := rfl
@[simp] theorem State.enterHalt_gfx (s : State) (r : HaltReason) (op : Option Word) : (s.enterHalt r op).gfx = s.gfx := rfl
@[simp] theorem State.enterHalt_draw (s : State) (r : HaltReason) (op : Option Word) : (s.enterHalt r op).draw = s.draw := rfl
@[simp] theorem State.enterHalt_keys (s : State) (r : HaltReason) (op : Option Word) : (s.enterHalt r op).keys = s.keys := rfl
@[simp] theorem State.enterHalt_mode (s : State) (r : HaltReason) (op : Option Word) : (s.enterHalt r op).mode = .halted (s.diag r op) := rfl
@[simp] theorem State.enterHalt_cfg (s : State) (r : HaltReason) (op : Option Word) : (s.enterHalt r op).cfg = s.cfg := rfl
@[simp] theorem State.enterHalt_rand (s : State) (r : HaltReason) (op : Option Word) : (s.enterHalt r op).rand = s.rand := rfl
@[simp] theorem State.enterHalt_ticks (s : State) (r : HaltReason) (op : Option Word) : (s.enterHalt r op).ticks = s.ticks := rfl
@[simp] theorem State.enterHalt_drawn (s : State) (r : HaltReason) (op : Option Word) : (s.enterHalt r op).drawn = s.drawn := rfl
@[simp] theorem State.enterHalt_frameOut (s : State) (r : HaltReason) (op : Option Word) : (s.enterHalt r op).frameOut = s.frameOut := rfl
@[simp] theorem State.enterHalt_reportOut (s : State) (r : HaltReason) (op : Option Word) : (s.enterHalt r op).reportOut = s.reportOut := rfl
@[simp] theorem State.enterHalt_haltOut (s : State) (r : HaltReason) (op : Option Word) : (s.enterHalt r op).haltOut = some (s.diag r op) := rfl
@[simp] theorem State.enterHalt_getV (s : State) (r : HaltReason) (op : Option Word) (y : Nibble) : (s.enterHalt r op).getV y = s.getV y := rfl
@[simp] theorem State.enterHalt_readByte (s : State) (r : HaltReason) (op : Option Word) (c : Nat) : (s.enterHalt r op).readByte c = s.readByte c := rfl

/-! ### latch -/

@[simp] theorem State.latch_mem (s : State) (inp : TickInput) : (s.latch inp).mem = s.mem := rfl
@[simp] theorem State.latch_v (s : State) (inp : TickInput) : (s.latch inp).v = s.v := rfl
@[simp] theorem State.latch_i (s : State) (inp : TickInput) : (s.latch inp).i = s.i := rfl
@[simp] theorem State.latch_pc (s : State) (inp : TickInput) : (s.latch inp).pc = s.pc := rfl
@[simp] theorem State.latch_sp (s : State) (inp : TickInput) : (s.latch inp).sp = s.sp := rfl
@[simp] theorem State.latch_stack (s : State) (inp : TickInput) : (s.latch inp).stack = s.stack := rfl
@[simp] theorem State.latch_dt (s : State) (inp : TickInput) : (s.latch inp).dt = s.dt := rfl
@[simp] theorem State.latch_st (s : State) (inp : TickInput) : (s.latch inp).st = s.st := rfl
@[simp] theorem State.latch_gfx (s : State) (inp : TickInput) : (s.latch inp).gfx = s.gfx := rfl
@[simp] theorem State.latch_draw (s : State) (inp : TickInput) : (s.latch inp).draw = s.draw := rfl
@[simp] theorem State.latch_keys (s : State) (inp : TickInput) : (s.latch inp).keys = inp.keysIn := rfl
@[simp] theorem State.latch_mode (s : State) (inp : TickInput) : (s.latch inp).mode = s.mode := rfl
@[simp] theorem State.latch_cfg (s : State) (inp : TickInput) : (s.latch inp).cfg = s.cfg := rfl
@[simp] theorem State.latch_rand (s : State) (inp : TickInput) : (s.latch inp).rand = inp.randIn := rfl
@[simp] theorem State.latch_ticks (s : State) (inp : TickInput) : (s.latch inp).ticks = s.ticks := rfl
@[simp] theorem State.latch_drawn (s : State) (inp : TickInput) : (s.latch inp).drawn = s.drawn := rfl
@[simp] theorem State.latch_frameOut (s : State) (inp : TickInput) : (s.latch inp).frameOut = s.frameOut := rfl
@[simp] theorem State.latch_reportOut (s : State) (inp : TickInput) : (s.latch inp).reportOut = s.reportOut := rfl
@[simp] theorem State.latch_haltOut (s : State) (inp : TickInput) : (s.latch inp).haltOut = s.haltOut := rfl
@[simp] theorem State.latch_getV (s : State) (inp : TickInput) (y : Nibble) : (s.latch inp).getV y = s.getV y := rfl
@[simp] theorem State.latch_readByte (s : State) (inp : TickInput) (c : Nat) : (s.latch inp).readByte c = s.readByte c := rfl

/-! ### clearOutputs -/

@[simp] theorem State.clearOutputs_mem (s : State) : (s.clearOutputs).mem = s.mem := rfl
@[simp] theorem State.clearOutputs_v (s : State) : (s.clearOutputs).v = s.v := rfl
@[simp] theorem State.clearOutputs_i (s : State) : (s.clearOutputs).i = s.i := rfl
@[simp] theorem State.clearOutputs_pc (s : State) : (s.clearOutputs).pc = s.pc := rfl
@[simp] theorem State.clearOutputs_sp (s : State) : (s.clearOutputs).sp = s.sp := rfl
@[simp] theorem State.clearOutputs_stack (s : State) : (s.clearOutputs).stack = s.stack := rfl
@[simp] theorem State.clearOutputs_dt (s : State) : (s.clearOutputs).dt = s.dt := rfl
@[simp] theorem State.clearOutputs_st (s : State) : (s.clearOutputs).st = s.st := rfl
@[simp] theorem State.clearOutputs_gfx (s : State) : (s.clearOutputs).gfx = s.gfx := rfl
@[simp] theorem State.clearOutputs_draw (s : State) : (s.clearOutputs).draw = s.draw := rfl
@[simp] theorem State.clearOutputs_keys (s : State) : (s.clearOutputs).keys = s.keys := rfl
@[simp] theorem State.clearOutputs_mode (s : State) : (s.clearOutputs).mode = s.mode := rfl
@[simp] theorem State.clearOutputs_cfg (s : State) : (s.clearOutputs).cfg = s.cfg := rfl
@[simp] theorem State.clearOutputs_rand (s : State) : (s.clearOutputs).rand = s.rand := rfl
@[simp] theorem State.clearOutputs_ticks (s : State) : (s.clearOutputs).ticks = s.ticks := rfl
@[simp] theorem State.clearOutputs_drawn (s : State) : (s.clearOutputs).drawn = s.drawn := rfl
@[simp] theorem State.clearOutputs_frameOut (s : State) : (s.clearOutputs).frameOut = none := rfl
@[simp] theorem State.clearOutputs_reportOut (s : State) : (s.clearOutputs).reportOut = none := rfl
@[simp] theorem State.clearOutputs_haltOut (s : State) : (s.clearOutputs).haltOut = none := rfl
@[simp] theorem State.clearOutputs_getV (s : State) (y : Nibble) : (s.clearOutputs).getV y = s.getV y := rfl
@[simp] theorem State.clearOutputs_readByte (s : State) (c : Nat) : (s.clearOutputs).readByte c = s.readByte c := rfl

/-! ### The register file -/

/-- A register read after a register write. -/
@[simp] theorem State.getV_setV (s : State) (x y : Nibble) (b : Byte) :
    (s.setV x b).getV y = if y = x then b else s.getV y := by
  unfold State.getV State.setV
  simp only [Vector.getElem_set]
  by_cases h : y = x
  · subst h; simp
  · have : x.toNat ≠ y.toNat := fun e => h (BitVec.eq_of_toNat_eq e.symm)
    simp [h, this]

/-- Two states with the same registers, read one by one, hold the same register file. -/
theorem v_ext {v w : Vector Byte 16} (h : ∀ r : Nibble, v[r.toNat] = w[r.toNat]) : v = w := by
  apply Vector.ext
  intro k hk
  have := h (BitVec.ofNat 4 k)
  simpa [Nat.mod_eq_of_lt hk] using this

/-- The whole effect of a result followed by its flag: VF ends as the flag, whatever x is (44_alu.md R193). -/
@[simp] theorem State.getV_setVFlag (s : State) (x y : Nibble) (rf : Byte × Byte) :
    (s.setVFlag x rf).getV y = if y = 0xF then rf.2 else if y = x then rf.1 else s.getV y := by
  simp [State.setVFlag]

@[simp] theorem State.setVFlag_mem (s : State) (x : Nibble) (rf : Byte × Byte) : (s.setVFlag x rf).mem = s.mem := rfl
@[simp] theorem State.setVFlag_i (s : State) (x : Nibble) (rf : Byte × Byte) : (s.setVFlag x rf).i = s.i := rfl
@[simp] theorem State.setVFlag_pc (s : State) (x : Nibble) (rf : Byte × Byte) : (s.setVFlag x rf).pc = s.pc := rfl
@[simp] theorem State.setVFlag_sp (s : State) (x : Nibble) (rf : Byte × Byte) : (s.setVFlag x rf).sp = s.sp := rfl
@[simp] theorem State.setVFlag_stack (s : State) (x : Nibble) (rf : Byte × Byte) : (s.setVFlag x rf).stack = s.stack := rfl
@[simp] theorem State.setVFlag_dt (s : State) (x : Nibble) (rf : Byte × Byte) : (s.setVFlag x rf).dt = s.dt := rfl
@[simp] theorem State.setVFlag_st (s : State) (x : Nibble) (rf : Byte × Byte) : (s.setVFlag x rf).st = s.st := rfl
@[simp] theorem State.setVFlag_gfx (s : State) (x : Nibble) (rf : Byte × Byte) : (s.setVFlag x rf).gfx = s.gfx := rfl
@[simp] theorem State.setVFlag_draw (s : State) (x : Nibble) (rf : Byte × Byte) : (s.setVFlag x rf).draw = s.draw := rfl
@[simp] theorem State.setVFlag_keys (s : State) (x : Nibble) (rf : Byte × Byte) : (s.setVFlag x rf).keys = s.keys := rfl
@[simp] theorem State.setVFlag_mode (s : State) (x : Nibble) (rf : Byte × Byte) : (s.setVFlag x rf).mode = s.mode := rfl
@[simp] theorem State.setVFlag_cfg (s : State) (x : Nibble) (rf : Byte × Byte) : (s.setVFlag x rf).cfg = s.cfg := rfl
@[simp] theorem State.setVFlag_rand (s : State) (x : Nibble) (rf : Byte × Byte) : (s.setVFlag x rf).rand = s.rand := rfl
@[simp] theorem State.setVFlag_ticks (s : State) (x : Nibble) (rf : Byte × Byte) : (s.setVFlag x rf).ticks = s.ticks := rfl
@[simp] theorem State.setVFlag_drawn (s : State) (x : Nibble) (rf : Byte × Byte) : (s.setVFlag x rf).drawn = s.drawn := rfl
@[simp] theorem State.setVFlag_frameOut (s : State) (x : Nibble) (rf : Byte × Byte) : (s.setVFlag x rf).frameOut = s.frameOut := rfl
@[simp] theorem State.setVFlag_reportOut (s : State) (x : Nibble) (rf : Byte × Byte) : (s.setVFlag x rf).reportOut = s.reportOut := rfl
@[simp] theorem State.setVFlag_haltOut (s : State) (x : Nibble) (rf : Byte × Byte) : (s.setVFlag x rf).haltOut = s.haltOut := rfl
@[simp] theorem State.setVFlag_readByte (s : State) (x : Nibble) (rf : Byte × Byte) (c : Nat) : (s.setVFlag x rf).readByte c = s.readByte c := rfl

end Sys2Proof.Machine
end

