-- ==== Sys2Proof/Laws/Memory.lean ====
section
/-! SUPPORT. The laws of memory: a read after a write, and that every operation keeps the canonical form. -/

namespace Sys2Proof.Machine

open Sys2Proof

theorem Memory.lookup_erase (m : Memory) (a c : Nat) :
    Memory.lookup (Memory.erase m a) c = if c = a then none else Memory.lookup m c := by
  induction m with
  | nil => simp [Memory.erase, Memory.lookup]
  | cons kb m ih =>
    obtain ⟨k, b⟩ := kb
    simp only [Memory.erase] at ih
    by_cases hk : k = a
    · subst hk
      simp only [Memory.erase, List.filter, ne_eq, not_true_eq_false, decide_false, ih, Memory.lookup]
      by_cases hc : c = k
      · simp [hc]
      · simp [hc, Ne.symm hc]
    · simp only [Memory.erase, List.filter, ne_eq, hk, not_false_eq_true, decide_true, Memory.lookup, ih]
      by_cases hkc : k = c
      · simp [hkc, hkc ▸ hk]
      · simp [hkc]

theorem Memory.lookup_insert (m : Memory) (a c : Nat) (b : Byte) :
    Memory.lookup (Memory.insert m a b) c = if c = a then some b else Memory.lookup m c := by
  induction m with
  | nil =>
    simp only [Memory.insert, Memory.lookup]
    by_cases h : c = a
    · simp [h]
    · simp [h, Ne.symm h]
  | cons kb m ih =>
    obtain ⟨k, d⟩ := kb
    simp only [Memory.insert]
    split
    · simp only [Memory.lookup]
      by_cases h : c = a
      · simp [h]
      · simp [h, Ne.symm h]
    · split
      · next h1 h2 =>
        subst h2
        simp only [Memory.lookup]
        by_cases h : c = a
        · simp [h]
        · simp [h, Ne.symm h]
      · next h1 h2 =>
        simp only [Memory.lookup, ih]
        by_cases h : c = a
        · subst h; simp [Ne.symm h2]
        · simp [h]

/-- A read after a write: the byte written, and every other byte as before. -/
theorem Memory.read_write (u : Nat → Byte) (m : Memory) (a c : Nat) (b : Byte) :
    Memory.read u (Memory.write u m a b) c = if c = a then b else Memory.read u m c := by
  unfold Memory.read Memory.write
  by_cases hb : b = u a
  · rw [if_pos hb, Memory.lookup_erase]
    by_cases h : c = a <;> simp [h, hb]
  · rw [if_neg hb, Memory.lookup_insert]
    by_cases h : c = a <;> simp [h]

theorem Memory.mem_insert {m : Memory} {a : Nat} {b : Byte} {c : Host.Cell}
    (h : c ∈ Memory.insert m a b) : c = (a, b) ∨ c ∈ m := by
  induction m with
  | nil => simpa [Memory.insert] using h
  | cons kd m ih =>
    obtain ⟨k, d⟩ := kd
    simp only [Memory.insert] at h
    split at h
    · simpa using h
    · split at h
      · rcases List.mem_cons.1 h with h | h
        · exact .inl h
        · exact .inr (List.mem_cons_of_mem _ h)
      · rcases List.mem_cons.1 h with h | h
        · exact .inr (h ▸ List.mem_cons_self)
        · exact (ih h).imp id (List.mem_cons_of_mem _)

theorem Memory.insert_sorted {m : Memory} (a : Nat) (b : Byte)
    (h : m.Pairwise (fun c d => c.1 < d.1)) : (Memory.insert m a b).Pairwise (fun c d => c.1 < d.1) := by
  induction m with
  | nil => simp [Memory.insert]
  | cons kd m ih =>
    obtain ⟨k, d⟩ := kd
    obtain ⟨hk, hm⟩ := List.pairwise_cons.1 h
    simp only [Memory.insert]
    split
    · next hak =>
      refine List.pairwise_cons.2 ⟨?_, h⟩
      intro c hc
      rcases List.mem_cons.1 hc with rfl | hc
      · exact hak
      · exact Nat.lt_trans hak (hk c hc)
    · split
      · next h1 h2 => subst h2; exact List.pairwise_cons.2 ⟨hk, hm⟩
      · next h1 h2 =>
        refine List.pairwise_cons.2 ⟨?_, ih hm⟩
        intro c hc
        rcases Memory.mem_insert hc with rfl | hc
        · show k < a
          omega
        · exact hk c hc

/-- A write keeps the canonical form. -/
theorem Memory.write_wf {u : Nat → Byte} {m : Memory} {a : Nat} (b : Byte) (ha : a < 4096)
    (h : Memory.wf u m) : Memory.wf u (Memory.write u m a b) := by
  unfold Memory.write
  by_cases hb : b = u a
  · rw [if_pos hb]
    exact ⟨h.1.filter _, fun c hc => h.2 c (List.mem_of_mem_filter hc)⟩
  · rw [if_neg hb]
    refine ⟨Memory.insert_sorted a b h.1, fun c hc => ?_⟩
    rcases Memory.mem_insert hc with rfl | hc
    · exact ⟨ha, hb⟩
    · exact h.2 c hc

theorem Memory.nil_wf (u : Nat → Byte) : Memory.wf u [] := by simp [Memory.wf]

/-- The memory after reset has the canonical form. -/
theorem State.reset_memOk : State.reset.MemOk := Memory.nil_wf _

/-! ### Bytes through the state -/

/-- One byte stored: it reads as stored, every other byte as before. -/
@[simp] theorem State.readByte_writeByte (s : State) (a c : Nat) (b : Byte) :
    (s.writeByte a b).readByte c = if c = a then b else s.readByte c :=
  Memory.read_write _ _ _ _ _

theorem State.writeByte_memOk {s : State} {a : Nat} (b : Byte) (ha : a < 4096) (h : s.MemOk) :
    (s.writeByte a b).MemOk := Memory.write_wf b ha h

/-- A list of bytes stored from `a` on: byte k of the list reads at a + k, every other byte as before. -/
theorem State.readByte_writeBytes (s : State) (a c : Nat) (bs : List Byte) :
    (s.writeBytes a bs).readByte c =
      if a ≤ c then bs.getD (c - a) (s.readByte c) else s.readByte c := by
  induction bs generalizing s a with
  | nil => simp [State.writeBytes]
  | cons b bs ih =>
    rw [State.writeBytes, ih, State.readByte_writeByte]
    by_cases h1 : a + 1 ≤ c
    · have h2 : a ≤ c := by omega
      have h3 : c ≠ a := by omega
      obtain ⟨k, rfl⟩ : ∃ k, c = a + (k + 1) := ⟨c - a - 1, by omega⟩
      have e1 : a + (k + 1) - (a + 1) = k := by omega
      have e2 : a + (k + 1) - a = k + 1 := by omega
      rw [if_pos h1, if_pos h2, if_neg h3, e1, e2, List.getD_cons_succ]
    · by_cases h2 : c = a
      · subst h2; simp
      · have h3 : ¬ a ≤ c := by omega
        simp [h1, h2, h3]

theorem State.writeBytes_memOk {s : State} {a : Nat} (bs : List Byte) (hb : a + bs.length ≤ 4096)
    (h : s.MemOk) : (s.writeBytes a bs).MemOk := by
  induction bs generalizing s a with
  | nil => exact h
  | cons b bs ih =>
    simp only [List.length_cons] at hb
    exact ih (by omega) (State.writeByte_memOk b (by omega) h)

/-- The bytes read in rising order. -/
theorem State.readBytes_length (s : State) (base n : Nat) : (s.readBytes base n).length = n := by
  simp [State.readBytes]

theorem State.readBytes_getElem (s : State) (base n k : Nat) (h : k < (s.readBytes base n).length) :
    (s.readBytes base n)[k] = s.readByte (base + k) := by
  simp [State.readBytes]

/-- Storing bytes changes no component but memory: the state is the old one with another memory. -/
theorem State.writeBytes_eq (s : State) (a : Nat) (bs : List Byte) :
    s.writeBytes a bs = { s with mem := (s.writeBytes a bs).mem } := by
  induction bs generalizing s a with
  | nil => rfl
  | cons b bs ih => rw [State.writeBytes, ih]; rfl

end Sys2Proof.Machine
end

