-- ==== Sys2Proof/Laws/Ops.lean ====
section
/-! SUPPORT. One lemma for each shared operation that says once everything it can do. -/

namespace Sys2Proof.Machine

open Sys2Proof

/-! ### Frames -/

theorem KeepsExcept.refl (cs : List Component) (s : State) : KeepsExcept cs s s := by
  intro c _
  cases c <;> first | rfl | exact fun _ => rfl

theorem KeepsExcept.mono {cs ds : List Component} {s t : State} (h : KeepsExcept cs s t)
    (hs : ∀ c ∈ cs, c ∈ ds) : KeepsExcept ds s t :=
  fun c hc => h c (fun hm => hc (hs c hm))

theorem Component.Agrees.trans {c : Component} {s t u : State} (h1 : c.Agrees s t) (h2 : c.Agrees t u) :
    c.Agrees s u := by
  cases c <;> simp_all [Component.Agrees]

theorem KeepsExcept.trans {cs : List Component} {s t u : State} (h1 : KeepsExcept cs s t)
    (h2 : KeepsExcept cs t u) : KeepsExcept cs s u :=
  fun c hc => (h1 c hc).trans (h2 c hc)

/-! ### The address checks (20_memory.md R52 to R54) -/

theorem firstFailing_eq_none {chk : Nat → Option HaltReason} {base n : Nat} :
    firstFailing chk base n = none ↔ ∀ k < n, chk (base + k) = none := by
  induction n generalizing base with
  | zero => simp [firstFailing]
  | succ n ih =>
    rw [firstFailing, Option.or_eq_none_iff, ih]
    constructor
    · rintro ⟨h0, h⟩ k hk
      cases k with
      | zero => exact h0
      | succ k => have := h k (by omega); rwa [show base + (k + 1) = base + 1 + k by omega]
    · intro h
      refine ⟨by simpa using h 0 (by omega), fun k hk => ?_⟩
      rw [show base + 1 + k = base + (k + 1) by omega]
      exact h (k + 1) (by omega)

/-- The reported failure is that of the lowest failing address (R54). -/
theorem firstFailing_eq_some {chk : Nat → Option HaltReason} {base n : Nat} {r : HaltReason} :
    firstFailing chk base n = some r ↔
      ∃ k < n, chk (base + k) = some r ∧ ∀ j < k, chk (base + j) = none := by
  induction n generalizing base with
  | zero => simp [firstFailing]
  | succ n ih =>
    rw [firstFailing]
    cases h0 : chk base with
    | some r0 =>
      simp only [Option.some_or, Option.some.injEq]
      constructor
      · rintro rfl
        exact ⟨0, by omega, by simpa using h0, by simp⟩
      · rintro ⟨k, -, hk, hj⟩
        cases k with
        | zero => simpa [h0] using hk
        | succ k => have := hj 0 (by omega); simp [h0] at this
    | none =>
      simp only [Option.none_or]
      rw [ih]
      constructor
      · rintro ⟨k, hk, hr, hj⟩
        refine ⟨k + 1, by omega, ?_, ?_⟩
        · rwa [show base + (k + 1) = base + 1 + k by omega]
        · intro j hj'
          cases j with
          | zero => simpa using h0
          | succ j => have := hj j (by omega); rwa [show base + (j + 1) = base + 1 + j by omega]
      · rintro ⟨k, hk, hr, hj⟩
        cases k with
        | zero => simp [h0] at hr
        | succ k =>
          refine ⟨k, by omega, ?_, ?_⟩
          · rwa [show base + 1 + k = base + (k + 1) by omega]
          · intro j hj'
            rw [show base + 1 + j = base + (j + 1) by omega]
            exact hj (j + 1) (by omega)

theorem readCheck_eq_none {a : Nat} : readCheck a = none ↔ a ≤ 0xFFF := by
  unfold readCheck; split <;> simp <;> omega

theorem readCheck_eq_some {a : Nat} {r : HaltReason} :
    readCheck a = some r ↔ 0xFFF < a ∧ r = .invalidAddress .data a := by
  unfold readCheck; split <;> simp [eq_comm] <;> omega

theorem writeCheck_eq_none {cfg : Config} {a : Nat} :
    writeCheck cfg a = none ↔ a ≤ 0xFFF ∧ (cfg.lowGuard = false ∨ 0x200 ≤ a) := by
  unfold writeCheck
  split
  · simp; omega
  · cases cfg.lowGuard <;> simp <;> omega

theorem writeCheck_eq_some {cfg : Config} {a : Nat} {r : HaltReason} :
    writeCheck cfg a = some r ↔
      (0xFFF < a ∧ r = .invalidAddress .data a) ∨
      (cfg.lowGuard = true ∧ a < 0x200 ∧ r = .protectedAddress .data a) := by
  unfold writeCheck
  have hs : ∀ q : HaltReason, (some q = some r) = (r = q) := fun q => by simp [eq_comm]
  split
  · next h =>
    rw [hs]; constructor
    · exact fun e => .inl ⟨h, e⟩
    · rintro (⟨-, e⟩ | ⟨-, h2, -⟩)
      · exact e
      · omega
  · next h =>
    split
    · next h2 =>
      simp only [Bool.and_eq_true, decide_eq_true_eq] at h2
      rw [hs]; constructor
      · exact fun e => .inr ⟨h2.1, h2.2, e⟩
      · rintro (⟨h3, -⟩ | ⟨-, -, e⟩)
        · omega
        · exact e
    · next h2 =>
      simp only [Bool.and_eq_true, decide_eq_true_eq, not_and] at h2
      simp only [reduceCtorEq, false_iff]
      rintro (⟨h3, -⟩ | ⟨h3, h4, -⟩)
      · omega
      · exact h2 h3 h4

/-- A block of reads passes its check exactly when it is in memory. -/
theorem readBlock_ok {s : State} {n : Nat} : firstFailing readCheck s.i.toNat n = none ↔ s.InMemory n := by
  rw [firstFailing_eq_none, State.InMemory]
  simp only [readCheck_eq_none]
  constructor
  · intro h
    rcases Nat.eq_zero_or_pos n with h0 | h0
    · exact .inl h0
    · have := h (n - 1) (by omega); right; omega
  · rintro h k hk
    omega

/-- A failing block of reads reports the lowest address outside memory. -/
theorem readBlock_fails {s : State} {n : Nat} (h : ¬ s.InMemory n) :
    firstFailing readCheck s.i.toNat n = some (.invalidAddress .data (max s.i.toNat 0x1000)) := by
  rw [firstFailing_eq_some]
  simp only [State.InMemory, not_or, Nat.not_le] at h
  refine ⟨max s.i.toNat 0x1000 - s.i.toNat, by omega, ?_, fun j hj => ?_⟩
  · rw [readCheck_eq_some]
    exact ⟨by omega, by congr 1; omega⟩
  · rw [readCheck_eq_none]; omega

/-- A block of writes passes its check exactly when it may be written. -/
theorem writeBlock_ok {s : State} {n : Nat} :
    firstFailing (writeCheck s.cfg) s.i.toNat n = none ↔ s.Writable n := by
  rw [firstFailing_eq_none, State.Writable, State.InMemory]
  simp only [writeCheck_eq_none]
  constructor
  · intro h
    rcases Nat.eq_zero_or_pos n with h0 | h0
    · exact ⟨.inl h0, .inl h0⟩
    · have h1 := h (n - 1) (by omega)
      have h2 := h 0 h0
      refine ⟨.inr (by omega), .inr ?_⟩
      simpa using h2.2
  · rintro ⟨h1, h2⟩ k hk
    refine ⟨by omega, ?_⟩
    rcases h2 with h2 | h2 | h2
    · omega
    · exact .inl h2
    · exact .inr (by omega)

/-- A block of writes above the guarded region fails like a block of reads. -/
theorem writeBlock_fails {s : State} {n : Nat} (h : ¬ s.InMemory n)
    (hg : s.cfg.lowGuard = false ∨ 0x200 ≤ s.i.toNat) :
    firstFailing (writeCheck s.cfg) s.i.toNat n = some (.invalidAddress .data (max s.i.toNat 0x1000)) := by
  rw [firstFailing_eq_some]
  simp only [State.InMemory, not_or, Nat.not_le] at h
  refine ⟨max s.i.toNat 0x1000 - s.i.toNat, by omega, ?_, fun j hj => ?_⟩
  · rw [writeCheck_eq_some]
    exact .inl ⟨by omega, by congr 1; omega⟩
  · rw [writeCheck_eq_none]
    exact ⟨by omega, hg.imp id (fun _ => by omega)⟩

/-- Under LOW_GUARD a block of writes that starts below 0x200 fails at its first address. -/
theorem writeBlock_guarded {s : State} {n : Nat} (hn : 0 < n) (hg : s.cfg.lowGuard = true)
    (hi : s.i.toNat < 0x200) :
    firstFailing (writeCheck s.cfg) s.i.toNat n = some (.protectedAddress .data s.i.toNat) := by
  rw [firstFailing_eq_some]
  refine ⟨0, hn, ?_, by simp⟩
  rw [writeCheck_eq_some]
  exact .inr ⟨hg, by simpa using hi, by simp⟩

theorem fetchCheck_eq_none {cfg : Config} {pc : Word} :
    fetchCheck cfg pc = none ↔ pc.toNat ≤ 0xFFE ∧ (cfg.lowGuard = false ∨ 0x200 ≤ pc.toNat) := by
  unfold fetchCheck
  split
  · simp; omega
  · cases cfg.lowGuard <;> simp <;> omega

theorem keyCheck_eq_none {k : Byte} : keyCheck k = none ↔ k.toNat ≤ 0xF := by
  unfold keyCheck; split <;> simp <;> omega

theorem keyCheck_eq_some {k : Byte} {r : HaltReason} :
    keyCheck k = some r ↔ 0xF < k.toNat ∧ r = .keyIndexOutOfRange k := by
  unfold keyCheck; split <;> simp [eq_comm] <;> omega

/-! ### How an instruction ends (40_cycle.md R105) -/

@[simp] theorem State.applyOutcome_advance (s : State) (op : Word) :
    s.applyOutcome op .advance = s.setPc (s.pc + 2) := rfl

@[simp] theorem State.applyOutcome_skip (s : State) (op : Word) :
    s.applyOutcome op .skip = s.setPc (s.pc + 4) := rfl

@[simp] theorem State.applyOutcome_jump (s : State) (op t : Word) :
    s.applyOutcome op (.jump t) = s.setPc t := rfl

@[simp] theorem State.applyOutcome_waitForKey (s : State) (op : Word) (x : Nibble) :
    s.applyOutcome op (.waitForKey x) = s.setMode (.waitingForKey x) := rfl

@[simp] theorem State.applyOutcome_fault (s : State) (op : Word) (r : HaltReason) :
    s.applyOutcome op (.fault r) = s.enterHalt r (some op) := rfl

/-- The diagnostic that fault entry takes captures the state it is taken from (60_exceptions.md R276). -/
theorem State.diag_captures (s : State) (r : HaltReason) (op : Option Word) : (s.diag r op).Captures s :=
  ⟨rfl, rfl, rfl, rfl, rfl⟩

/-- A snapshot depends on the five captured components only. -/
theorem Diag.Captures.congr {d : Diag} {s t : State} (h : d.Captures s) (hpc : t.pc = s.pc) (hv : t.v = s.v)
    (hi : t.i = s.i) (hsp : t.sp = s.sp) (hst : t.stack = s.stack) : d.Captures t := by
  obtain ⟨h1, h2, h3, h4, h5⟩ := h
  exact ⟨h1.trans hpc.symm, h2.trans hv.symm, h3.trans hi.symm, h4.trans hsp.symm, h5.trans hst.symm⟩

/-- Fault entry: the state halted, and nothing else changed (60_exceptions.md R275). -/
theorem State.enterHalt_spec (s : State) (r : HaltReason) (op : Option Word) :
    HaltsWith r op s (s.enterHalt r op) := by
  refine ⟨_, rfl, rfl, rfl, rfl, s.diag_captures r op, fun c hc => ?_⟩
  cases c <;> first | rfl | exact fun _ => rfl | simp at hc

/-- What a checked instruction can do: halt on the failing check with nothing written, or its effect and PC + 2. -/
theorem finishChecked_next {i : Instr} {check : Option HaltReason} {s effect t : State}
    (h : finishChecked i check s effect = .next t) :
    (∃ r, check = some r ∧ t = s.enterHalt r (some (encode i))) ∨
      (check = none ∧ t = effect.setPc (effect.pc + 2)) := by
  unfold finishChecked finish at h
  cases check with
  | none => right; simpa [eq_comm] using h
  | some r => left; exact ⟨r, rfl, by simpa [eq_comm] using h⟩

theorem jumpTo_of_lt {t : Nat} (h : t < 4095) : jumpTo t = .jump (BitVec.ofNat 16 t) := by
  simp [jumpTo, Nat.not_le.2 h]

theorem jumpTo_of_ge {t : Nat} (h : t ≥ 4095) : jumpTo t = .fault (.invalidAddress .jump t) := by
  simp [jumpTo, h]

@[simp] theorem applyOutcome_skipIf (s : State) (op : Word) (c : Bool) :
    s.applyOutcome op (skipIf c) = s.setPc (if c then s.pc + 4 else s.pc + 2) := by
  cases c <;> rfl

/-! ### The stack (10_state.md R27, R28) -/

/-- What a push can do. -/
theorem State.push_eq_some {s t : State} {w : Word} :
    s.push w = some t ↔ ∃ h : s.sp.val < 16,
      t = { s with stack := s.stack.set s.sp.val w, sp := ⟨s.sp.val + 1, by omega⟩ } := by
  unfold State.push
  split <;> simp_all [eq_comm]

theorem State.push_eq_none {s : State} {w : Word} : s.push w = none ↔ s.sp.val = 16 := by
  unfold State.push
  split
  · simp; omega
  · simp; have := s.sp.isLt; omega

/-- What a pop can do. -/
theorem State.pop_eq_some {s t : State} {w : Word} :
    s.pop = some (w, t) ↔ ∃ h : 0 < s.sp.val,
      w = s.stack[s.sp.val - 1] ∧ t = { s with sp := ⟨s.sp.val - 1, by omega⟩ } := by
  unfold State.pop
  split <;> simp_all [eq_comm]

theorem State.pop_eq_none {s : State} : s.pop = none ↔ s.sp.val = 0 := by
  unfold State.pop
  split
  · simp; omega
  · simp; omega

/-! ### The register lists of Fx55 and Fx65 -/

theorem State.firstRegs_length (s : State) (x : Nibble) : (s.firstRegs x).length = x.toNat + 1 := by
  simp [State.firstRegs]

theorem State.firstRegs_getElem (s : State) (x : Nibble) (k : Nat) (h : k < (s.firstRegs x).length) :
    (s.firstRegs x)[k] = s.getV (BitVec.ofNat 4 k) := by
  simp [State.firstRegs]

/-- A list of bytes loaded from register `k` on: byte j of the list in register k + j, every other register as before. -/
theorem State.getV_loadRegs (s : State) (k : Nat) (bs : List Byte) (r : Nibble) (h : k + bs.length ≤ 16) :
    (s.loadRegs k bs).getV r =
      if k ≤ r.toNat then bs.getD (r.toNat - k) (s.getV r) else s.getV r := by
  induction bs generalizing s k with
  | nil => simp [State.loadRegs]
  | cons b bs ih =>
    simp only [List.length_cons] at h
    rw [State.loadRegs, ih _ _ (by omega), State.getV_setV]
    have hk : (BitVec.ofNat 4 k).toNat = k := by
      rw [BitVec.toNat_ofNat]; exact Nat.mod_eq_of_lt (by omega)
    by_cases h1 : k + 1 ≤ r.toNat
    · have hne : r ≠ BitVec.ofNat 4 k := by rintro rfl; omega
      obtain ⟨j, hj⟩ : ∃ j, r.toNat = k + (j + 1) := ⟨r.toNat - k - 1, by omega⟩
      have e1 : r.toNat - (k + 1) = j := by omega
      have e2 : r.toNat - k = j + 1 := by omega
      rw [if_pos h1, if_neg hne, if_pos (show k ≤ r.toNat by omega), e1, e2, List.getD_cons_succ]
    · by_cases h2 : r.toNat = k
      · have he : r = BitVec.ofNat 4 k := BitVec.eq_of_toNat_eq (by rw [hk, h2])
        rw [if_neg h1, if_pos he, if_pos (show k ≤ r.toNat by omega), h2]
        simp
      · have hne : r ≠ BitVec.ofNat 4 k := by rintro rfl; exact h2 hk
        rw [if_neg h1, if_neg hne, if_neg (show ¬ k ≤ r.toNat by omega)]

/-- Loading registers changes no component but V: the state is the old one with another register file. -/
theorem State.loadRegs_eq (s : State) (k : Nat) (bs : List Byte) :
    s.loadRegs k bs = { s with v := (s.loadRegs k bs).v } := by
  induction bs generalizing s k with
  | nil => rfl
  | cons b bs ih => rw [State.loadRegs, ih]; rfl

end Sys2Proof.Machine
end

