-- ==== Sys2Proof/Laws/Display.lean ====
section
/-! SUPPORT. What the sprite compositor does (41_display.md R123): which pixels it flips and when it latches a collision. -/

namespace Sys2Proof.Machine

open Sys2Proof

@[simp] theorem Gfx.pixel_blank (cx : Fin 64) (cy : Fin 32) : Gfx.blank.pixel cx cy = false := by
  simp [Gfx.pixel, Gfx.blank]

/-- One flip: its own pixel, no other. -/
theorem Gfx.pixel_flip (g : Gfx) (cx cx' : Fin 64) (cy cy' : Fin 32) :
    (g.flip cx cy).pixel cx' cy' = if cx' = cx ∧ cy' = cy then !g.pixel cx' cy' else g.pixel cx' cy' := by
  unfold Gfx.pixel Gfx.flip
  simp only [Fin.getElem_fin, Vector.getElem_set]
  by_cases hy : cy' = cy
  · subst hy
    simp only [if_true, Vector.getElem_set, and_true]
    by_cases hx : cx' = cx
    · subst hx; simp
    · have : cx.val ≠ cx'.val := fun e => hx (Fin.ext e.symm)
      simp [hx, this]
  · have : cy.val ≠ cy'.val := fun e => hy (Fin.ext e.symm)
    simp [hy, this]

/-- From `a`, exactly the pixels of `cov` were flipped, and the collision latch tells whether one of them was set. -/
structure Plotted (cov : Fin 64 → Fin 32 → Prop) (a b : Gfx × Bool) : Prop where
  flipped : ∀ cx cy, cov cx cy → b.1.pixel cx cy = !a.1.pixel cx cy
  kept : ∀ cx cy, ¬ cov cx cy → b.1.pixel cx cy = a.1.pixel cx cy
  latch : b.2 = true ↔ a.2 = true ∨ ∃ cx cy, cov cx cy ∧ a.1.pixel cx cy = true

theorem Plotted.nothing (a : Gfx × Bool) : Plotted (fun _ _ => False) a a :=
  ⟨by simp, by simp, by simp⟩

theorem Plotted.congr {c d : Fin 64 → Fin 32 → Prop} {a b : Gfx × Bool} (h : Plotted c a b)
    (e : ∀ cx cy, c cx cy ↔ d cx cy) : Plotted d a b := by
  obtain rfl : c = d := funext fun x => funext fun y => propext (e x y)
  exact h

/-- Two disjoint sets of pixels drawn one after the other. -/
theorem Plotted.seq {c d : Fin 64 → Fin 32 → Prop} {a b e : Gfx × Bool} (h1 : Plotted c a b) (h2 : Plotted d b e)
    (hd : ∀ cx cy, c cx cy → ¬ d cx cy) : Plotted (fun cx cy => c cx cy ∨ d cx cy) a e := by
  refine ⟨fun cx cy h => ?_, fun cx cy h => ?_, ?_⟩
  · rcases h with h | h
    · rw [h2.kept _ _ (hd _ _ h), h1.flipped _ _ h]
    · rw [h2.flipped _ _ h, h1.kept _ _ (fun hc => hd _ _ hc h)]
  · simp only [not_or] at h
    rw [h2.kept _ _ h.2, h1.kept _ _ h.1]
  · rw [h2.latch, h1.latch, or_assoc]
    refine or_congr_right ?_
    constructor
    · rintro (⟨cx, cy, h, hp⟩ | ⟨cx, cy, h, hp⟩)
      · exact ⟨cx, cy, .inl h, hp⟩
      · exact ⟨cx, cy, .inr h, by rwa [h1.kept _ _ (fun hc => hd _ _ hc h)] at hp⟩
    · rintro ⟨cx, cy, h | h, hp⟩
      · exact .inl ⟨cx, cy, h, hp⟩
      · exact .inr ⟨cx, cy, h, by rwa [h1.kept _ _ (fun hc => hd _ _ hc h)]⟩

theorem plot_plotted (px : Fin 64) (py : Fin 32) (a : Gfx × Bool) :
    Plotted (fun cx cy => cx = px ∧ cy = py) a (plot px py a) := by
  refine ⟨fun cx cy h => ?_, fun cx cy h => ?_, ?_⟩
  · simp [plot, Gfx.pixel_flip, h]
  · simp [plot, Gfx.pixel_flip, h]
  · simp [plot]

/-- The last `k` bits of a sprite row fall on the columns (cx0 + j) mod 64, j from 8 - k to 7. -/
theorem plotRow_plotted (cx0 : Nat) (py : Fin 32) (row : Byte) (k : Nat) (hk : k ≤ 8) (a : Gfx × Bool) :
    Plotted (fun cx cy => (∃ j, 8 - k ≤ j ∧ j < 8 ∧ row.getLsbD (7 - j) = true ∧ cx.val = (cx0 + j) % 64) ∧ cy = py)
      a (plotRow cx0 py row k a) := by
  induction k generalizing a with
  | zero =>
    rw [plotRow]
    exact (Plotted.nothing a).congr (fun cx cy => by simp; omega)
  | succ k ih =>
    rw [plotRow]
    by_cases hb : row.getLsbD k = true
    · rw [if_pos hb]
      refine ((plot_plotted _ py a).seq (ih (by omega) _) ?_).congr ?_
      · rintro cx cy ⟨rfl, rfl⟩ ⟨⟨j, h1, h2, -, h4⟩, -⟩
        simp only [Fin.ofNat] at h4
        omega
      · intro cx cy
        constructor
        · rintro (⟨rfl, rfl⟩ | ⟨⟨j, h1, h2, h3, h4⟩, rfl⟩)
          · refine ⟨⟨7 - k, by omega, by omega, ?_, by simp [Fin.ofNat]⟩, rfl⟩
            rwa [show 7 - (7 - k) = k by omega]
          · exact ⟨⟨j, by omega, h2, h3, h4⟩, rfl⟩
        · rintro ⟨⟨j, h1, h2, h3, h4⟩, rfl⟩
          by_cases hj : j = 7 - k
          · subst hj
            exact .inl ⟨Fin.ext (by simpa [Fin.ofNat] using h4), rfl⟩
          · exact .inr ⟨⟨j, by omega, h2, h3, h4⟩, rfl⟩
    · rw [if_neg hb]
      refine (ih (by omega) a).congr fun cx cy => ?_
      constructor
      · rintro ⟨⟨j, h1, h2, h3, h4⟩, h⟩
        exact ⟨⟨j, by omega, h2, h3, h4⟩, h⟩
      · rintro ⟨⟨j, h1, h2, h3, h4⟩, h⟩
        refine ⟨⟨j, ?_, h2, h3, h4⟩, h⟩
        have : j ≠ 7 - k := by
          rintro rfl
          rw [show 7 - (7 - k) = k by omega] at h3
          exact hb h3
        omega

/-- The whole sprite, at most 32 rows: bit j of row i falls on column (cx0 + j) mod 64 and row (cy0 + i) mod 32. -/
theorem plotSprite_plotted (cx0 cy0 : Nat) (rows : List Byte) (a : Gfx × Bool) (h32 : rows.length ≤ 32) :
    Plotted (fun cx cy => ∃ i j : Nat, i < rows.length ∧ j < 8 ∧ (rows.getD i 0).getLsbD (7 - j) = true ∧
      cx.val = (cx0 + j) % 64 ∧ cy.val = (cy0 + i) % 32) a (plotSprite cx0 cy0 rows a) := by
  induction rows generalizing cy0 a with
  | nil =>
    rw [plotSprite]
    exact (Plotted.nothing a).congr (fun cx cy => by simp)
  | cons row rows ih =>
    simp only [List.length_cons] at h32
    rw [plotSprite]
    refine ((plotRow_plotted cx0 _ row 8 (by omega) a).seq (ih (cy0 + 1) _ (by omega)) ?_).congr ?_
    · rintro cx cy ⟨-, rfl⟩ ⟨i, j, hi, -, -, -, h⟩
      simp only [Fin.ofNat] at h
      omega
    · intro cx cy
      constructor
      · rintro (⟨⟨j, -, hj, hb, hx⟩, rfl⟩ | ⟨i, j, hi, hj, hb, hx, hy⟩)
        · exact ⟨0, j, by simp, hj, by simpa using hb, hx, by simp [Fin.ofNat]⟩
        · exact ⟨i + 1, j, by simpa using hi, hj, by simpa using hb, hx, by rw [hy]; congr 1; omega⟩
      · rintro ⟨i, j, hi, hj, hb, hx, hy⟩
        cases i with
        | zero =>
          exact .inl ⟨⟨j, by omega, hj, by simpa using hb, hx⟩, Fin.ext (by simpa [Fin.ofNat] using hy)⟩
        | succ i =>
          refine .inr ⟨i, j, by simpa using hi, hj, by simpa using hb, hx, ?_⟩
          rw [hy]; congr 1; omega

/-- The compositor on the sprite of DRW: exactly the pixels that `SpriteCovers` names are flipped. -/
theorem State.drawSprite_plotted (s : State) (x y n : Nibble) :
    Plotted (SpriteCovers s x y n) (s.gfx, false)
      (plotSprite (s.getV x).toNat (s.getV y).toNat (s.spriteRows n) (s.gfx, false)) := by
  have hlen : (s.spriteRows n).length = n.toNat := State.readBytes_length _ _ _
  refine (plotSprite_plotted _ _ _ _ (by have := n.isLt; omega)).congr fun cx cy => ?_
  have hget : ∀ i, i < n.toNat → (s.spriteRows n).getD i 0 = s.readByte (s.i.toNat + i) := by
    intro i hi
    rw [List.getD_eq_getElem _ _ (by omega)]
    exact State.readBytes_getElem _ _ _ _ _
  constructor
  · rintro ⟨i, j, hi, hj, hb, hx, hy⟩
    rw [hlen] at hi
    rw [hget i hi] at hb
    exact ⟨i, j, hi, hj, hb, hx, hy⟩
  · rintro ⟨i, j, hi, hj, hb, hx, hy⟩
    refine ⟨i, j, by omega, hj, ?_, hx, hy⟩
    rw [hget i hi]; exact hb

end Sys2Proof.Machine
end

