-- ==== Sys2Proof/Laws/Exec.lean ====
section
/-! SUPPORT. What an instruction can do, said once for all of them: the handler contract of 40_cycle.md R103 and R104. -/

namespace Sys2Proof.Machine

open Sys2Proof

/-- The components no handler writes (R103): PC, mode, the inputs, the parameters, the schedule and the outputs. -/
structure HandlerFrame (s t : State) : Prop where
  pc : t.pc = s.pc
  mode : t.mode = s.mode
  keys : t.keys = s.keys
  cfg : t.cfg = s.cfg
  rand : t.rand = s.rand
  ticks : t.ticks = s.ticks
  drawn : t.drawn = s.drawn
  frameOut : t.frameOut = s.frameOut
  reportOut : t.reportOut = s.reportOut
  haltOut : t.haltOut = s.haltOut

theorem HandlerFrame.refl (s : State) : HandlerFrame s s := ⟨rfl, rfl, rfl, rfl, rfl, rfl, rfl, rfl, rfl, rfl⟩

theorem State.writeBytes_handlerFrame (s : State) (a : Nat) (bs : List Byte) :
    HandlerFrame s (s.writeBytes a bs) := by
  rw [State.writeBytes_eq]; exact ⟨rfl, rfl, rfl, rfl, rfl, rfl, rfl, rfl, rfl, rfl⟩

theorem State.loadRegs_handlerFrame (s : State) (k : Nat) (bs : List Byte) :
    HandlerFrame s (s.loadRegs k bs) := by
  rw [State.loadRegs_eq]; exact ⟨rfl, rfl, rfl, rfl, rfl, rfl, rfl, rfl, rfl, rfl⟩

/-- What an instruction can do: a handler leaves a state that meets the frame and an outcome, never `unknown`, and has
written nothing if it returns a fault; then the outcome is applied. -/
def MeetsContract (i : Instr) (s : State) (r : Host.Outcome State Fault Refusal) : Prop :=
  ∃ s' o, r = .next (s'.applyOutcome (encode i) o) ∧ o ≠ .unknown ∧ HandlerFrame s s' ∧
    ∀ q, o = .fault q → s' = s

theorem finish_contract {i : Instr} {s s' : State} {o : HandlerOutcome} (hf : HandlerFrame s s')
    (hu : o ≠ .unknown) (hq : ∀ q, o = .fault q → s' = s) : MeetsContract i s (finish i o s') :=
  ⟨s', o, rfl, hu, hf, hq⟩

theorem advance_contract {i : Instr} {s s' : State} (hf : HandlerFrame s s') :
    MeetsContract i s (finish i .advance s') := finish_contract hf (by simp) (by simp)

theorem self_contract {i : Instr} {s : State} {o : HandlerOutcome} (hu : o ≠ .unknown) :
    MeetsContract i s (finish i o s) := finish_contract (.refl s) hu (fun _ _ => rfl)

theorem finishChecked_contract {i : Instr} {s s' : State} {c : Option HaltReason} (hf : HandlerFrame s s') :
    MeetsContract i s (finishChecked i c s s') := by
  unfold finishChecked
  cases c
  · exact advance_contract hf
  · exact self_contract (by simp)

theorem skipIf_ne_unknown (c : Bool) : skipIf c ≠ .unknown := by cases c <;> simp [skipIf]

theorem jumpTo_ne_unknown (t : Nat) : jumpTo t ≠ .unknown := by unfold jumpTo; split <;> simp

/-- The handler contract holds of every instruction in every state. -/
theorem exec_contract (i : Instr) (s : State) : MeetsContract i s (exec i s) := by
  cases i <;> simp only [exec]
  case cls => exact advance_contract ⟨rfl, rfl, rfl, rfl, rfl, rfl, rfl, rfl, rfl, rfl⟩
  case ret ign =>
    unfold execRet
    split
    · exact self_contract (by simp)
    · next h =>
      obtain ⟨h0, -, rfl⟩ := State.pop_eq_some.1 h
      exact finish_contract ⟨rfl, rfl, rfl, rfl, rfl, rfl, rfl, rfl, rfl, rfl⟩ (by simp) (by simp)
  case jp => exact self_contract (jumpTo_ne_unknown _)
  case call nnn =>
    unfold execCall
    split
    · exact self_contract (by simp)
    · next h =>
      obtain ⟨h0, rfl⟩ := State.push_eq_some.1 h
      exact finish_contract ⟨rfl, rfl, rfl, rfl, rfl, rfl, rfl, rfl, rfl, rfl⟩ (by simp) (by simp)
  case seImm => exact self_contract (skipIf_ne_unknown _)
  case sneImm => exact self_contract (skipIf_ne_unknown _)
  case seReg => exact self_contract (skipIf_ne_unknown _)
  case sneReg => exact self_contract (skipIf_ne_unknown _)
  case ldImm => exact advance_contract ⟨rfl, rfl, rfl, rfl, rfl, rfl, rfl, rfl, rfl, rfl⟩
  case addImm => exact advance_contract ⟨rfl, rfl, rfl, rfl, rfl, rfl, rfl, rfl, rfl, rfl⟩
  case ldReg => exact advance_contract ⟨rfl, rfl, rfl, rfl, rfl, rfl, rfl, rfl, rfl, rfl⟩
  case orReg => exact advance_contract ⟨rfl, rfl, rfl, rfl, rfl, rfl, rfl, rfl, rfl, rfl⟩
  case andReg => exact advance_contract ⟨rfl, rfl, rfl, rfl, rfl, rfl, rfl, rfl, rfl, rfl⟩
  case xorReg => exact advance_contract ⟨rfl, rfl, rfl, rfl, rfl, rfl, rfl, rfl, rfl, rfl⟩
  case addReg => exact advance_contract ⟨rfl, rfl, rfl, rfl, rfl, rfl, rfl, rfl, rfl, rfl⟩
  case subReg => exact advance_contract ⟨rfl, rfl, rfl, rfl, rfl, rfl, rfl, rfl, rfl, rfl⟩
  case shr => exact advance_contract ⟨rfl, rfl, rfl, rfl, rfl, rfl, rfl, rfl, rfl, rfl⟩
  case subnReg => exact advance_contract ⟨rfl, rfl, rfl, rfl, rfl, rfl, rfl, rfl, rfl, rfl⟩
  case shl => exact advance_contract ⟨rfl, rfl, rfl, rfl, rfl, rfl, rfl, rfl, rfl, rfl⟩
  case ldI => exact advance_contract ⟨rfl, rfl, rfl, rfl, rfl, rfl, rfl, rfl, rfl, rfl⟩
  case jpV0 => exact self_contract (jumpTo_ne_unknown _)
  case rnd => exact advance_contract ⟨rfl, rfl, rfl, rfl, rfl, rfl, rfl, rfl, rfl, rfl⟩
  case drw => exact finishChecked_contract ⟨rfl, rfl, rfl, rfl, rfl, rfl, rfl, rfl, rfl, rfl⟩
  case skp =>
    unfold execSkp
    split
    · exact self_contract (by simp)
    · exact self_contract (skipIf_ne_unknown _)
  case sknp =>
    unfold execSknp
    split
    · exact self_contract (by simp)
    · exact self_contract (skipIf_ne_unknown _)
  case ldVxDt => exact advance_contract ⟨rfl, rfl, rfl, rfl, rfl, rfl, rfl, rfl, rfl, rfl⟩
  case ldVxK => exact self_contract (by simp)
  case ldDtVx => exact advance_contract ⟨rfl, rfl, rfl, rfl, rfl, rfl, rfl, rfl, rfl, rfl⟩
  case ldStVx => exact advance_contract ⟨rfl, rfl, rfl, rfl, rfl, rfl, rfl, rfl, rfl, rfl⟩
  case addIVx =>
    unfold execAddIVx
    refine advance_contract ?_
    cases s.cfg.fx1eSetsVF <;> exact ⟨rfl, rfl, rfl, rfl, rfl, rfl, rfl, rfl, rfl, rfl⟩
  case ldFVx => exact advance_contract ⟨rfl, rfl, rfl, rfl, rfl, rfl, rfl, rfl, rfl, rfl⟩
  case ldBVx => exact finishChecked_contract (State.writeBytes_handlerFrame _ _ _)
  case ldMemVx => exact finishChecked_contract (State.writeBytes_handlerFrame _ _ _)
  case ldVxMem => exact finishChecked_contract (State.loadRegs_handlerFrame _ _ _)

end Sys2Proof.Machine
end

