-- ==== Sys2Proof/Laws/Schedule.lean ====
section
/-! SUPPORT. Schedules (60_exceptions.md R286): where the fixed ticks stand, and what a schedule holds at a place. -/

namespace Sys2Proof.Machine

open Sys2Proof

/-- The fixed places rise strictly. -/
theorem fixedAt_lt_succ (gap : Nat → Nat) (k : Nat) : fixedAt gap k < fixedAt gap (k + 1) := by
  simp only [fixedAt]; omega

theorem fixedAt_strictMono (gap : Nat → Nat) : StrictMono (fixedAt gap) := strictMono_nat_of_lt_succ (fixedAt_lt_succ gap)

/-- The k-th fixed place is at k or later. -/
theorem le_fixedAt (gap : Nat → Nat) (k : Nat) : k ≤ fixedAt gap k := (fixedAt_strictMono gap).id_le k

/-- At a fixed place stands a timer tick or an instruction tick by turns. -/
theorem fairTick_fixed (gap : Nat → Nat) (raw : Nat → Tick) (inp : Nat → TickInput) (k : Nat) :
    fairTick gap raw inp (fixedAt gap k) = if k % 2 = 0 then .timer else .instr (inp (fixedAt gap k)) := by
  unfold fairTick
  cases h : (List.range (fixedAt gap k + 1)).find? (fun j => fixedAt gap j == fixedAt gap k) with
  | none =>
    have := List.find?_eq_none.1 h k (List.mem_range.2 (Nat.lt_succ_of_le (le_fixedAt gap k)))
    simp at this
  | some j =>
    have hj : fixedAt gap j = fixedAt gap k := by simpa using List.find?_some h
    rw [(fixedAt_strictMono gap).injective hj]

/-- At every other place stands the unfixed tick. -/
theorem fairTick_other (gap : Nat → Nat) (raw : Nat → Tick) (inp : Nat → TickInput) (n : Nat)
    (h : ∀ k, fixedAt gap k ≠ n) : fairTick gap raw inp n = raw n := by
  unfold fairTick
  rw [List.find?_eq_none.2 (fun k _ => by simpa using h k)]

end Sys2Proof.Machine
end

