-- ==== Sys2Proof/Laws/Driver.lean ====
section
/-! SUPPORT. What the driver does (40_cycle.md R108 to R111, 60_exceptions.md R285): one lemma for each kind of transition, in the terms of Safety.lean, and runs of several steps. -/

namespace Sys2Proof.Machine

open Sys2Proof

/-- The tick that comes next is the head of the schedule. -/
theorem State.nextTick_cons {s : State} {t : Tick} {rest : List Tick} (h : s.ticks = t :: rest) :
    s.nextTick = (t, { s with ticks := rest }) := by
  unfold State.nextTick; rw [h]

/-- What a transition starts from is the state with the tick taken (R40, R41). -/
theorem State.nextTick_ticked (s : State) : s.nextTick.2.clearOutputs = s.ticked := by
  unfold State.nextTick State.ticked
  cases s.ticks <;> rfl

/-- Taking the head of a schedule that is not used up draws no free tick (log 1). -/
theorem State.ticked_cons {s : State} {t : Tick} {rest : List Tick} (h : s.ticks = t :: rest) :
    s.ticked = { s with ticks := rest, frameOut := none, reportOut := none, haltOut := none } := by
  simp [State.ticked, h]

/-- The next tick is the first of the schedule (R286; log 1). -/
theorem State.nextTick_schedule (s : State) : s.nextTick.1 = s.schedule 0 := by
  unfold State.nextTick State.schedule
  cases s.ticks <;> simp

/-- The schedule depends on the list of ticks and the counter only. -/
theorem State.schedule_congr {s t : State} (h : t.ticks = s.ticks) (hd : t.drawn = s.drawn) : t.schedule = s.schedule := by
  funext k
  simp only [State.schedule, h, hd]

/-- Taking a tick leaves the rest of the schedule (R286; log 1). -/
theorem State.ticked_schedule (s : State) (k : Nat) : s.ticked.schedule k = s.schedule (k + 1) := by
  unfold State.ticked State.schedule
  cases s.ticks with
  | nil => simp; congr 1; omega
  | cons t ts => simp

/-- The driver's latch gives the state an instruction runs on (R108 step 2). -/
theorem State.ticked_latch (s : State) (inp : TickInput) : s.ticked.latch inp = s.latched inp := rfl

@[simp] theorem State.ticked_mode (s : State) : s.ticked.mode = s.mode := rfl

/-- Taking a tick keeps every component but the schedule and the outputs. -/
theorem State.ticked_keeps (s : State) : KeepsExcept [.ticks, .drawn, .frameOut, .reportOut, .haltOut] s s.ticked := by
  intro c hc
  cases c <;> first | (simp at hc; done) | rfl | exact fun _ => rfl

@[simp] theorem State.latched_mode (s : State) (inp : TickInput) : (s.latched inp).mode = s.mode := rfl
@[simp] theorem State.latched_pc (s : State) (inp : TickInput) : (s.latched inp).pc = s.pc := rfl
@[simp] theorem State.latched_cfg (s : State) (inp : TickInput) : (s.latched inp).cfg = s.cfg := rfl
@[simp] theorem State.latched_draw (s : State) (inp : TickInput) : (s.latched inp).draw = s.draw := rfl
@[simp] theorem State.latched_gfx (s : State) (inp : TickInput) : (s.latched inp).gfx = s.gfx := rfl
@[simp] theorem State.latched_keys (s : State) (inp : TickInput) : (s.latched inp).keys = inp.keysIn := rfl
@[simp] theorem State.latched_rand (s : State) (inp : TickInput) : (s.latched inp).rand = inp.randIn := rfl
@[simp] theorem State.latched_frameOut (s : State) (inp : TickInput) : (s.latched inp).frameOut = none := rfl
@[simp] theorem State.latched_reportOut (s : State) (inp : TickInput) : (s.latched inp).reportOut = none := rfl
@[simp] theorem State.latched_haltOut (s : State) (inp : TickInput) : (s.latched inp).haltOut = none := rfl
@[simp] theorem State.latched_getV (s : State) (inp : TickInput) (r : Nibble) :
    (s.latched inp).getV r = s.getV r := rfl
@[simp] theorem State.latched_readByte (s : State) (inp : TickInput) (a : Nat) :
    (s.latched inp).readByte a = s.readByte a := rfl
@[simp] theorem State.latched_fetchWord (s : State) (inp : TickInput) :
    (s.latched inp).fetchWord = s.fetchWord := by
  simp [State.fetchWord]

/-! ### The four kinds of tick -/

/-- A tick in Halted changes nothing but the schedule, and emits nothing (R111, R285). -/
theorem step_halted {s : State} (h : s.mode.isHalted = true) : step s = .next s.ticked := by
  simp only [step, transition, State.nextTick_ticked]
  cases hs : s.mode with
  | running => simp [hs, Mode.isHalted] at h
  | waitingForKey x => simp [hs, Mode.isHalted] at h
  | halted d => split <;> simp [instrTick, timerTick, hs]

/-- A timer tick outside Halted (R285). -/
theorem step_timer {s : State} (ht : s.nextTick.1 = .timer) (h : s.mode.isHalted = false) :
    step s = .next ((s.ticked.setDt (countDown s.dt)).setSt (countDown s.st)) := by
  simp only [step, transition, State.nextTick_ticked, ht, timerTick, State.ticked_mode]
  cases hs : s.mode with
  | halted d => simp [hs, Mode.isHalted] at h
  | running => rfl
  | waitingForKey x => rfl

/-- A quit outside Halted (R108 step 3, R296). -/
theorem step_quit {s : State} {inp : TickInput} (ht : s.nextTick.1 = .instr inp) (hq : inp.quitIn = true)
    (h : s.mode.isHalted = false) :
    step s = .next ((s.latched inp).enterHalt .userQuit none).handOff := by
  simp only [step, transition, State.nextTick_ticked, ht, instrTick, State.ticked_mode, hq, State.ticked_latch]
  cases hs : s.mode with
  | halted d => simp [hs, Mode.isHalted] at h
  | running => rfl
  | waitingForKey x => rfl

/-- An instruction tick in Running (R108 step 4, R110). -/
theorem step_running {s : State} {inp : TickInput} (ht : s.InstrTickNext inp) (hm : s.mode = .running) :
    step s = onNext State.handOff (s.latched inp).fetchAndExecute := by
  simp only [step, transition, State.nextTick_ticked, ht.1, instrTick, State.ticked_mode, hm, ht.2, State.ticked_latch]
  rfl

/-- An instruction tick while waiting for a key (R109, R110). -/
theorem step_waiting {s : State} {inp : TickInput} {x : Nibble} (ht : s.InstrTickNext inp)
    (hm : s.mode = .waitingForKey x) :
    step s = .next ((s.latched inp).keyWait x inp.keydownIn).handOff := by
  simp only [step, transition, State.nextTick_ticked, ht.1, instrTick, State.ticked_mode, hm, ht.2, State.ticked_latch]
  rfl

/-- Fetch, decode and execute, when the fetch is allowed and the word decodes (R100 to R103). -/
theorem State.fetchAndExecute_instr {s : State} {i : Instr} (hp : s.pc.toNat ≤ 0xFFE)
    (hg : s.cfg.lowGuard = false ∨ 0x200 ≤ s.pc.toNat)
    (hd : decodeWord s.cfg.zeroGroupMask s.fetchWord = some i) : s.fetchAndExecute = exec i s := by
  simp only [State.fetchAndExecute, fetchCheck_eq_none.2 ⟨hp, hg⟩, hd]

/-- The end of an Unknown word's tick (R106). -/
theorem State.fetchAndExecute_unknown {s : State} (hp : s.pc.toNat ≤ 0xFFE)
    (hg : s.cfg.lowGuard = false ∨ 0x200 ≤ s.pc.toNat)
    (hd : decodeWord s.cfg.zeroGroupMask s.fetchWord = none) :
    s.fetchAndExecute = .next { s with reportOut := some (s.pc, s.fetchWord), pc := s.pc + 2 } := by
  simp only [State.fetchAndExecute, fetchCheck_eq_none.2 ⟨hp, hg⟩, hd]
  rfl

/-- The hand-off with no frame waiting. -/
theorem State.handOff_of_clear {s : State} (h : s.draw = false) : s.handOff = s := by
  simp [State.handOff, h]

/-- The hand-off leaves the draw flag clear (R110). -/
theorem State.handOff_draw (s : State) : s.handOff.draw = false := by
  unfold State.handOff; cases h : s.draw <;> simp [h]

/-- The hand-off touches the draw flag and the frame output only. -/
theorem State.handOff_keeps (s : State) : KeepsExcept [.draw, .frameOut] s s.handOff := by
  unfold State.handOff
  split
  · intro c hc; cases c <;> first | (simp at hc; done) | rfl | exact fun _ => rfl
  · exact .refl _ _

/-- The hand-off as one record update. -/
theorem State.handOff_eq (s : State) :
    s.handOff = { s with draw := false, frameOut := if s.draw then some s.gfx else s.frameOut } := by
  unfold State.handOff
  split
  · rfl
  · next h => simp at h; rw [← h]

/-- The key wait does nothing, or ends with one key (R109). -/
theorem State.keyWait_cases (s : State) (x : Nibble) (ks : List Nibble) :
    s.keyWait x ks = s ∨
      ∃ k : Nibble, s.keyWait x ks = ((s.setV x (k.setWidth 8)).setPc (s.pc + 2)).setMode .running := by
  cases ks with
  | nil => exact .inl rfl
  | cons k ks => exact .inr ⟨k, rfl⟩

/-- An instruction always answers a next state. -/
theorem exec_answers (i : Instr) (s : State) : ∃ t, exec i s = .next t := by
  obtain ⟨_, _, e, _⟩ := exec_contract i s
  exact ⟨_, e⟩

/-- Everything a step can be: a tick in Halted, a timer tick, a quit, a key-wait tick, a fetch that fails, an instruction, an
Unknown word (R108 to R111, R285). -/
theorem step_cases {s t : State} (h : step s = .next t) :
    (s.mode.isHalted = true ∧ t = s.ticked) ∨
    (s.mode.isHalted = false ∧ s.nextTick.1 = .timer ∧
      t = (s.ticked.setDt (countDown s.dt)).setSt (countDown s.st)) ∨
    (∃ inp, s.mode.isHalted = false ∧ s.nextTick.1 = .instr inp ∧ inp.quitIn = true ∧
      t = ((s.latched inp).enterHalt .userQuit none).handOff) ∨
    (∃ inp x, s.mode = .waitingForKey x ∧ s.InstrTickNext inp ∧
      t = ((s.latched inp).keyWait x inp.keydownIn).handOff) ∨
    (∃ inp r, s.mode = .running ∧ s.InstrTickNext inp ∧ fetchCheck s.cfg s.pc = some r ∧
      t = ((s.latched inp).enterHalt r none).handOff) ∨
    (∃ inp i u, s.mode = .running ∧ s.InstrTickNext inp ∧ fetchCheck s.cfg s.pc = none ∧
      decodeWord s.cfg.zeroGroupMask s.fetchWord = some i ∧ exec i (s.latched inp) = .next u ∧ t = u.handOff) ∨
    (∃ inp, s.mode = .running ∧ s.InstrTickNext inp ∧ fetchCheck s.cfg s.pc = none ∧
      decodeWord s.cfg.zeroGroupMask s.fetchWord = none ∧
      t = ({ s.latched inp with reportOut := some (s.pc, s.fetchWord), pc := s.pc + 2 } : State).handOff) := by
  by_cases hh : s.mode.isHalted = true
  · rw [step_halted hh] at h
    cases h
    exact .inl ⟨hh, rfl⟩
  · right
    have hh' : s.mode.isHalted = false := by simpa using hh
    cases ht : s.nextTick.1 with
    | timer =>
      rw [step_timer ht hh'] at h
      cases h
      exact .inl ⟨hh', rfl, rfl⟩
    | instr inp =>
      right
      by_cases hq : inp.quitIn = true
      · rw [step_quit ht hq hh'] at h
        cases h
        exact .inl ⟨inp, hh', rfl, hq, rfl⟩
      · right
        have hi : s.InstrTickNext inp := ⟨ht, by simpa using hq⟩
        cases hm : s.mode with
        | halted d => simp [hm, Mode.isHalted] at hh
        | waitingForKey x =>
          rw [step_waiting hi hm] at h
          cases h
          exact .inl ⟨inp, x, rfl, hi, rfl⟩
        | running =>
          right
          rw [step_running hi hm] at h
          cases hf : fetchCheck s.cfg s.pc with
          | some r =>
            left
            refine ⟨inp, r, rfl, hi, rfl, ?_⟩
            simp [State.fetchAndExecute, hf, onNext] at h
            exact h.symm
          | none =>
            right
            obtain ⟨hp, hg⟩ := fetchCheck_eq_none.1 hf
            cases hd : decodeWord s.cfg.zeroGroupMask s.fetchWord with
            | some i =>
              left
              obtain ⟨u, hu⟩ := exec_answers i (s.latched inp)
              rw [State.fetchAndExecute_instr (i := i) (by simpa using hp) (by simpa using hg) (by simpa using hd),
                hu] at h
              simp only [onNext] at h
              cases h
              exact ⟨inp, i, u, rfl, hi, rfl, rfl, hu, rfl⟩
            | none =>
              right
              rw [State.fetchAndExecute_unknown (by simpa using hp) (by simpa using hg) (by simpa using hd)] at h
              simp only [onNext] at h
              cases h
              exact ⟨inp, rfl, hi, rfl, rfl, by simp⟩

/-! ### Runs -/

@[simp] theorem core_run_zero (s : State) : Host.Core.run Sys2Proof.core 0 s = .next s := rfl

/-- A run of one step more, on any machine. -/
theorem run_succ (M : Host.Core) (k : Nat) (s t : M.State) (h : M.step s = .next t) :
    M.run (k + 1) s = M.run k t := by
  simp only [Host.Core.run, h]

/-- A run of one step more. -/
theorem core_run_succ {s t : State} (k : Nat) (h : step s = .next t) :
    Host.Core.run Sys2Proof.core (k + 1) s = Host.Core.run Sys2Proof.core k t :=
  run_succ Sys2Proof.core k s t h

end Sys2Proof.Machine
end

