-- ==== Sys2Proof/Laws/PerInstr.lean ====
section
/-! SUPPORT. Per-instruction laws. Family TableRow: the word of an instruction selects the instruction's own row of the match and mask table (30_encoding.md R76). -/

namespace Sys2Proof.Laws

open Sys2Proof

/-- The word of a well-formed instruction selects its row of R76. -/
def TableRow.Statement (i : Instr) : Prop :=
  ∀ m : ZeroGroupMask, i.wellFormed m = true → (i.row m).selects (encode i) = true

/-- A word `g nnn` under the mask 0xF000. -/
theorem and_mask_addr (g : Nibble) (nnn : Addr) : (g ++ nnn : Word) &&& 0xF000#16 = g ++ 0#12 := by
  rw [show (0xF000#16 : Word) = 0xF#4 ++ 0x000#12 from rfl, BitVec.and_append, BitVec.and_zero,
    show (0xF#4 : Nibble) = BitVec.allOnes 4 from rfl, BitVec.and_allOnes]

/-- A word `g x kk` under the mask 0xF000. -/
theorem and_mask_byte (g x : Nibble) (kk : Byte) : (g ++ x ++ kk : Word) &&& 0xF000#16 = g ++ 0#4 ++ 0#8 := by
  rw [show (0xF000#16 : Word) = 0xF#4 ++ 0x0#4 ++ 0x00#8 from rfl, BitVec.and_append, BitVec.and_append,
    BitVec.and_zero, BitVec.and_zero, show (0xF#4 : Nibble) = BitVec.allOnes 4 from rfl, BitVec.and_allOnes]

/-- A word `g x y n` under the mask 0xF000. -/
theorem and_mask_nibbles (g x y n : Nibble) :
    (g ++ x ++ y ++ n : Word) &&& 0xF000#16 = g ++ 0#4 ++ 0#4 ++ 0#4 := by
  rw [show (0xF000#16 : Word) = 0xF#4 ++ 0x0#4 ++ 0x0#4 ++ 0x0#4 from rfl, BitVec.and_append, BitVec.and_append,
    BitVec.and_append, BitVec.and_zero, BitVec.and_zero, BitVec.and_zero,
    show (0xF#4 : Nibble) = BitVec.allOnes 4 from rfl, BitVec.and_allOnes]

/-- A word `g x y f` under the mask 0xF00F. -/
theorem and_mask_function (g x y f : Nibble) :
    (g ++ x ++ y ++ f : Word) &&& 0xF00F#16 = g ++ 0#4 ++ 0#4 ++ f := by
  rw [show (0xF00F#16 : Word) = 0xF#4 ++ 0x0#4 ++ 0x0#4 ++ 0xF#4 from rfl, BitVec.and_append, BitVec.and_append,
    BitVec.and_append, BitVec.and_zero, BitVec.and_zero,
    show (0xF#4 : Nibble) = BitVec.allOnes 4 from rfl, BitVec.and_allOnes, BitVec.and_allOnes]

/-- A word `g x f` under the mask 0xF0FF. -/
theorem and_mask_function_byte (g x : Nibble) (f : Byte) :
    (g ++ x ++ f : Word) &&& 0xF0FF#16 = g ++ 0#4 ++ f := by
  rw [show (0xF0FF#16 : Word) = 0xF#4 ++ 0x0#4 ++ 0xFF#8 from rfl, BitVec.and_append, BitVec.and_append,
    BitVec.and_zero, show (0xF#4 : Nibble) = BitVec.allOnes 4 from rfl,
    show (0xFF#8 : Byte) = BitVec.allOnes 8 from rfl, BitVec.and_allOnes, BitVec.and_allOnes]

/-- A word of the 0 group that its mask allows, under that mask. -/
theorem and_mask_zero (m : ZeroGroupMask) (ign : Nibble) (f : Byte) (h : m.allows ign = true) :
    (0#4 ++ ign ++ f : Word) &&& m.toWord = 0#4 ++ 0#4 ++ f := by
  cases m with
  | lowByte => exact and_mask_function_byte 0 ign f
  | fullWord =>
    obtain rfl : ign = 0 := by simpa [ZeroGroupMask.allows] using h
    exact BitVec.and_allOnes

theorem TableRow.cls (ign : Nibble) : TableRow.Statement (.cls ign) :=
  fun m h => beq_iff_eq.2 (and_mask_zero m ign _ h)

theorem TableRow.ret (ign : Nibble) : TableRow.Statement (.ret ign) :=
  fun m h => beq_iff_eq.2 (and_mask_zero m ign _ h)

theorem TableRow.jp (nnn : Addr) : TableRow.Statement (.jp nnn) :=
  fun _ _ => beq_iff_eq.2 (and_mask_addr _ nnn)

theorem TableRow.call (nnn : Addr) : TableRow.Statement (.call nnn) :=
  fun _ _ => beq_iff_eq.2 (and_mask_addr _ nnn)

theorem TableRow.seImm (x : Nibble) (kk : Byte) : TableRow.Statement (.seImm x kk) :=
  fun _ _ => beq_iff_eq.2 (and_mask_byte _ x kk)

theorem TableRow.sneImm (x : Nibble) (kk : Byte) : TableRow.Statement (.sneImm x kk) :=
  fun _ _ => beq_iff_eq.2 (and_mask_byte _ x kk)

theorem TableRow.seReg (x : Nibble) (y : Nibble) : TableRow.Statement (.seReg x y) :=
  fun _ _ => beq_iff_eq.2 (and_mask_function _ x y _)

theorem TableRow.ldImm (x : Nibble) (kk : Byte) : TableRow.Statement (.ldImm x kk) :=
  fun _ _ => beq_iff_eq.2 (and_mask_byte _ x kk)

theorem TableRow.addImm (x : Nibble) (kk : Byte) : TableRow.Statement (.addImm x kk) :=
  fun _ _ => beq_iff_eq.2 (and_mask_byte _ x kk)

theorem TableRow.ldReg (x : Nibble) (y : Nibble) : TableRow.Statement (.ldReg x y) :=
  fun _ _ => beq_iff_eq.2 (and_mask_function _ x y _)

theorem TableRow.orReg (x : Nibble) (y : Nibble) : TableRow.Statement (.orReg x y) :=
  fun _ _ => beq_iff_eq.2 (and_mask_function _ x y _)

theorem TableRow.andReg (x : Nibble) (y : Nibble) : TableRow.Statement (.andReg x y) :=
  fun _ _ => beq_iff_eq.2 (and_mask_function _ x y _)

theorem TableRow.xorReg (x : Nibble) (y : Nibble) : TableRow.Statement (.xorReg x y) :=
  fun _ _ => beq_iff_eq.2 (and_mask_function _ x y _)

theorem TableRow.addReg (x : Nibble) (y : Nibble) : TableRow.Statement (.addReg x y) :=
  fun _ _ => beq_iff_eq.2 (and_mask_function _ x y _)

theorem TableRow.subReg (x : Nibble) (y : Nibble) : TableRow.Statement (.subReg x y) :=
  fun _ _ => beq_iff_eq.2 (and_mask_function _ x y _)

theorem TableRow.shr (x : Nibble) (y : Nibble) : TableRow.Statement (.shr x y) :=
  fun _ _ => beq_iff_eq.2 (and_mask_function _ x y _)

theorem TableRow.subnReg (x : Nibble) (y : Nibble) : TableRow.Statement (.subnReg x y) :=
  fun _ _ => beq_iff_eq.2 (and_mask_function _ x y _)

theorem TableRow.shl (x : Nibble) (y : Nibble) : TableRow.Statement (.shl x y) :=
  fun _ _ => beq_iff_eq.2 (and_mask_function _ x y _)

theorem TableRow.sneReg (x : Nibble) (y : Nibble) : TableRow.Statement (.sneReg x y) :=
  fun _ _ => beq_iff_eq.2 (and_mask_function _ x y _)

theorem TableRow.ldI (nnn : Addr) : TableRow.Statement (.ldI nnn) :=
  fun _ _ => beq_iff_eq.2 (and_mask_addr _ nnn)

theorem TableRow.jpV0 (nnn : Addr) : TableRow.Statement (.jpV0 nnn) :=
  fun _ _ => beq_iff_eq.2 (and_mask_addr _ nnn)

theorem TableRow.rnd (x : Nibble) (kk : Byte) : TableRow.Statement (.rnd x kk) :=
  fun _ _ => beq_iff_eq.2 (and_mask_byte _ x kk)

theorem TableRow.drw (x : Nibble) (y : Nibble) (n : Nibble) : TableRow.Statement (.drw x y n) :=
  fun _ _ => beq_iff_eq.2 (and_mask_nibbles _ x y n)

theorem TableRow.skp (x : Nibble) : TableRow.Statement (.skp x) :=
  fun _ _ => beq_iff_eq.2 (and_mask_function_byte _ x _)

theorem TableRow.sknp (x : Nibble) : TableRow.Statement (.sknp x) :=
  fun _ _ => beq_iff_eq.2 (and_mask_function_byte _ x _)

theorem TableRow.ldVxDt (x : Nibble) : TableRow.Statement (.ldVxDt x) :=
  fun _ _ => beq_iff_eq.2 (and_mask_function_byte _ x _)

theorem TableRow.ldVxK (x : Nibble) : TableRow.Statement (.ldVxK x) :=
  fun _ _ => beq_iff_eq.2 (and_mask_function_byte _ x _)

theorem TableRow.ldDtVx (x : Nibble) : TableRow.Statement (.ldDtVx x) :=
  fun _ _ => beq_iff_eq.2 (and_mask_function_byte _ x _)

theorem TableRow.ldStVx (x : Nibble) : TableRow.Statement (.ldStVx x) :=
  fun _ _ => beq_iff_eq.2 (and_mask_function_byte _ x _)

theorem TableRow.addIVx (x : Nibble) : TableRow.Statement (.addIVx x) :=
  fun _ _ => beq_iff_eq.2 (and_mask_function_byte _ x _)

theorem TableRow.ldFVx (x : Nibble) : TableRow.Statement (.ldFVx x) :=
  fun _ _ => beq_iff_eq.2 (and_mask_function_byte _ x _)

theorem TableRow.ldBVx (x : Nibble) : TableRow.Statement (.ldBVx x) :=
  fun _ _ => beq_iff_eq.2 (and_mask_function_byte _ x _)

theorem TableRow.ldMemVx (x : Nibble) : TableRow.Statement (.ldMemVx x) :=
  fun _ _ => beq_iff_eq.2 (and_mask_function_byte _ x _)

theorem TableRow.ldVxMem (x : Nibble) : TableRow.Statement (.ldVxMem x) :=
  fun _ _ => beq_iff_eq.2 (and_mask_function_byte _ x _)

end Sys2Proof.Laws
end

