-- ==== Sys2Proof/Laws/Words.lean ====
section
/-! SUPPORT. The words as the instruction rules write them (a base with the fields shifted in) are the words the encoder builds. -/

namespace Sys2Proof

/-- Format A: the group and nnn. -/
theorem or_append2 (g : Nibble) (b : Addr) : (g ++ b : Word) = wordA (g ++ 0#12) b := by
  unfold wordA
  apply BitVec.eq_of_getLsbD_eq
  intro k hk
  simp only [BitVec.getLsbD_or, BitVec.getLsbD_append, BitVec.getLsbD_setWidth, BitVec.getLsbD_zero, hk, decide_true, Bool.true_and]
  split
  · simp
  · rw [BitVec.getLsbD_of_ge b k (by omega)]; simp

/-- Format XK: the group, x and kk. -/
theorem or_append3 (g x : Nibble) (b : Byte) : (g ++ x ++ b : Word) = wordXK (g ++ 0#12) x b := by
  unfold wordXK
  apply BitVec.eq_of_getLsbD_eq
  intro k hk
  simp only [BitVec.getLsbD_or, BitVec.getLsbD_append, BitVec.getLsbD_setWidth, BitVec.getLsbD_zero,
    BitVec.getLsbD_shiftLeft, hk, decide_true, Bool.true_and]
  by_cases h1 : k < 8
  · simp [h1, show k < 12 by omega]
  · by_cases h2 : k < 12
    · rw [BitVec.getLsbD_of_ge b k (by omega)]
      simp [h1, h2, show k - 8 < 4 by omega, show k - 8 < 16 by omega]
    · rw [BitVec.getLsbD_of_ge b k (by omega), BitVec.getLsbD_of_ge x (k-8) (by omega)]
      simp [h1, h2, show ¬ k - 8 < 4 by omega, show k - 8 - 4 = k - 12 by omega]

/-- Format XY: the group, x, y and the function nibble. -/
theorem or_append4 (g x y f : Nibble) : (g ++ x ++ y ++ f : Word) = wordXY (g ++ 0#8 ++ f) x y := by
  unfold wordXY
  apply BitVec.eq_of_getLsbD_eq
  intro k hk
  simp only [BitVec.getLsbD_or, BitVec.getLsbD_append, BitVec.getLsbD_setWidth, BitVec.getLsbD_zero,
    BitVec.getLsbD_shiftLeft, hk, decide_true, Bool.true_and]
  by_cases h1 : k < 4
  · simp [h1, show k < 8 by omega]
  · by_cases h2 : k < 8
    · simp [h1, h2, show k - 4 < 4 by omega, show k - 4 < 8 by omega, show k-4 < 16 by omega]
    · rw [BitVec.getLsbD_of_ge y (k-4) (by omega)]
      by_cases h3 : k < 12
      · simp [h1, h2, show ¬ k - 4 < 4 by omega, show k - 4 < 8 by omega, show k - 8 < 16 by omega,
          show k - 8 < 4 by omega, show k - 4 - 4 = k - 8 by omega]
      · rw [BitVec.getLsbD_of_ge x (k-8) (by omega)]
        simp [h1, h2, show ¬ k - 4 < 4 by omega, show ¬ k - 4 < 8 by omega, show ¬ k - 4 - 4 < 4 by omega,
          show k - 4 - 4 - 4 = k - 4 - 8 by omega]

/-- Format XF: the group, x and the function byte. -/
theorem or_appendX (g x : Nibble) (f : Byte) : (g ++ x ++ f : Word) = wordX (g ++ 0#4 ++ f) x := by
  unfold wordX
  apply BitVec.eq_of_getLsbD_eq
  intro k hk
  simp only [BitVec.getLsbD_or, BitVec.getLsbD_append, BitVec.getLsbD_setWidth, BitVec.getLsbD_zero,
    BitVec.getLsbD_shiftLeft, hk, decide_true, Bool.true_and]
  by_cases h1 : k < 8
  · simp [h1]
  · by_cases h2 : k < 12
    · simp [h1, show k - 8 < 4 by omega, show k - 8 < 16 by omega]
    · rw [BitVec.getLsbD_of_ge x (k-8) (by omega)]
      simp [h1, show ¬ k - 8 < 4 by omega]

/-- A function nibble put into a word of format XY whose base has none. -/
theorem wordXY_or_nibble (g x y n : Nibble) :
    wordXY (g ++ 0#8 ++ 0#4) x y ||| n.setWidth 16 = (g ++ x ++ y ++ n : Word) := by
  rw [or_append4]
  unfold wordXY
  apply BitVec.eq_of_getLsbD_eq
  intro k hk
  simp only [BitVec.getLsbD_or, BitVec.getLsbD_append, BitVec.getLsbD_setWidth, BitVec.getLsbD_zero, hk, decide_true,
    Bool.true_and]
  by_cases h : k < 4
  · simp [h, Bool.or_comm]
  · rw [BitVec.getLsbD_of_ge n k (by omega)]
    simp [h]

end Sys2Proof
end

