-- ==== Sys2Proof/Tests/Slice0.lean ====
section
/-! SUPPORT. Tests with results from spec/95_test_vectors.md (each names its row) and the words of 30_encoding.md R71 and R76, and a witness for every statement that has hypotheses. -/

namespace Sys2Proof.Tests

open Sys2Proof Sys2Proof.Machine

/-! ### Helpers -/

/-- The state after one step that runs the word from `s` (the conventions of 95_test_vectors.md: idle inputs). -/
def runWord (s : State) (w : Nat) : State :=
  match step (s.withFetchWord 16 w) with
  | .next t => t
  | .fault _ => s
  | .refused _ => s

/-- `s` with a tick at the head of its schedule. -/
def withTick (s : State) (t : Tick) : State := { s with ticks := t :: s.ticks }

/-- The state after one step that takes the tick from `s`. -/
def runTick (s : State) (t : Tick) : State :=
  match step (withTick s t) with
  | .next u => u
  | .fault _ => s
  | .refused _ => s

/-- Inputs with nothing happening. -/
def idle : TickInput := ⟨0, [], false, 0⟩

/-- The start state of the vectors. -/
def r : State := State.reset

/-- `s` with a parameter set: LOW_GUARD, FX1E_SETS_VF, ZERO_GROUP_MASK. -/
def guarded (s : State) : State := { s with cfg := { s.cfg with lowGuard := true } }
def flagged (s : State) : State := { s with cfg := { s.cfg with fx1eSetsVF := true } }
def fullMask (s : State) : State := { s with cfg := { s.cfg with zeroGroupMask := .fullWord } }

/-- `s` with stack entry 0 and SP set, and with SP alone. -/
def oneFrame (s : State) (w : Word) : State := { s with sp := 1, stack := s.stack.set 0 w }
def withSp (s : State) (n : Fin 17) : State := { s with sp := n }

/-- The reason of a halt, if there is one. -/
def reasonOf (s : State) : Option HaltReason :=
  match s.mode with
  | .halted d => some d.reason
  | .running => none
  | .waitingForKey _ => none

/-! ### WellFormed: an ill-formed term for each check -/

theorem test_cls_ignored_bits_refused_under_full_mask : (Instr.cls 1).wellFormed .fullWord = false := by decide
theorem test_ret_ignored_bits_refused_under_full_mask : (Instr.ret 1).wellFormed .fullWord = false := by decide
theorem test_cls_ignored_bits_allowed_under_low_byte : (Instr.cls 1).wellFormed .lowByte = true := by decide

/-! ### Decoding: a word for every constructor, written from R71 and R76 -/

theorem test_decode_display : decodeTableWord 16 0x00E0 = some (.cls 0) ∧ decodeTableWord 16 0x05E0 = some (.cls 5) ∧
    decodeTableWord 16 0xD125 = some (.drw 1 2 5) := by decide
theorem test_decode_flow : decodeTableWord 16 0x00EE = some (.ret 0) ∧ decodeTableWord 16 0x01EE = some (.ret 1) ∧
    decodeTableWord 16 0x1208 = some (.jp 0x208) ∧ decodeTableWord 16 0x2400 = some (.call 0x400) ∧
    decodeTableWord 16 0xB300 = some (.jpV0 0x300) := by decide
theorem test_decode_skip : decodeTableWord 16 0x3342 = some (.seImm 3 0x42) ∧
    decodeTableWord 16 0x40FF = some (.sneImm 0 0xFF) ∧ decodeTableWord 16 0x5120 = some (.seReg 1 2) ∧
    decodeTableWord 16 0x9120 = some (.sneReg 1 2) ∧ decodeTableWord 16 0xE59E = some (.skp 5) ∧
    decodeTableWord 16 0xE5A1 = some (.sknp 5) := by decide
theorem test_decode_load_and_logic : decodeTableWord 16 0x6AFF = some (.ldImm 0xA 0xFF) ∧
    decodeTableWord 16 0x7003 = some (.addImm 0 3) ∧ decodeTableWord 16 0x8010 = some (.ldReg 0 1) ∧
    decodeTableWord 16 0x8AB1 = some (.orReg 0xA 0xB) ∧ decodeTableWord 16 0x8AB2 = some (.andReg 0xA 0xB) ∧
    decodeTableWord 16 0x8AB3 = some (.xorReg 0xA 0xB) := by decide
theorem test_decode_arithmetic : decodeTableWord 16 0x8AB4 = some (.addReg 0xA 0xB) ∧
    decodeTableWord 16 0x8AB5 = some (.subReg 0xA 0xB) ∧ decodeTableWord 16 0x8AB6 = some (.shr 0xA 0xB) ∧
    decodeTableWord 16 0x8AB7 = some (.subnReg 0xA 0xB) ∧ decodeTableWord 16 0x801E = some (.shl 0 1) ∧
    decodeTableWord 16 0xC30F = some (.rnd 3 0x0F) := by decide
theorem test_decode_index_memory : decodeTableWord 16 0xA300 = some (.ldI 0x300) ∧
    decodeTableWord 16 0xF21E = some (.addIVx 2) ∧ decodeTableWord 16 0xF029 = some (.ldFVx 0) ∧
    decodeTableWord 16 0xFA33 = some (.ldBVx 0xA) ∧ decodeTableWord 16 0xF355 = some (.ldMemVx 3) ∧
    decodeTableWord 16 0xFF65 = some (.ldVxMem 0xF) := by decide
theorem test_decode_timer_key : decodeTableWord 16 0xF307 = some (.ldVxDt 3) ∧
    decodeTableWord 16 0xF20A = some (.ldVxK 2) ∧ decodeTableWord 16 0xF015 = some (.ldDtVx 0) ∧
    decodeTableWord 16 0xF118 = some (.ldStVx 1) := by decide
/-- The Unknown rows of the decode table of 95_test_vectors.md. -/
theorem test_decode_unknown : decodeTableWord 16 0x0000 = none ∧ decodeTableWord 16 0x0123 = none ∧
    decodeTableWord 16 0x5121 = none ∧ decodeTableWord 16 0x9121 = none ∧ decodeTableWord 16 0x8018 = none ∧
    decodeTableWord 16 0x801D = none ∧ decodeTableWord 16 0x801F = none ∧ decodeTableWord 16 0xE59F = none ∧
    decodeTableWord 16 0xF000 = none ∧ decodeTableWord 16 0xF0FF = none := by decide
theorem test_decode_full_mask : decodeWord .fullWord 0x05E0 = none ∧ decodeWord .fullWord 0x01EE = none ∧
    decodeWord .fullWord 0x00E0 = some (.cls 0) := by decide
/-- R51: the byte at the lower address is the most significant one. -/
theorem test_byte_order : wordOfBytes 0x12 0x08 = 0x1208 ∧ hiByte 0x1208 = 0x12 ∧ loByte 0x1208 = 0x08 ∧
    (((r.writeByte 0x200 0x12).writeByte 0x201 0x08)).fetchWord = 0x1208 := by decide
theorem test_decode_truncated : decode .lowByte [0x12] = .truncated ∧ decode .lowByte [] = .truncated := by decide
/-- R84: the assembler's words of SHL and CLS have their ignored fields 0. -/
theorem test_encode : encode (.shl 0 0) = 0x800E ∧ encode (.cls 0) = 0x00E0 ∧ encode (.drw 1 2 5) = 0xD125 ∧
    encodeBytes (.jp 0x208) = [0x12, 0x08] := by decide

/-! ### One step of each instruction (the L1 and L2 tables) -/

theorem test_cls : (runWord (r.setGfx (r.gfx.flip 3 4)) 0x00E0).gfx = Gfx.blank ∧
    (runWord r 0x00E0).frameOut = some Gfx.blank ∧ (runWord r 0x00E0).draw = false := by decide
theorem test_drw_wraps_in_x :
    let t := runWord ((((r.setV 1 62).setV 2 31).setI 0x300).writeByte 0x300 0xF0) 0xD121
    t.gfx = (((Gfx.blank.flip 62 31).flip 63 31).flip 0 31).flip 1 31 ∧ t.getV 0xF = 0 ∧ t.pc = 0x202 := by decide
theorem test_drw_collision :
    let t := runWord (((r.setI 0x300).writeByte 0x300 0x81).setGfx (Gfx.blank.flip 7 0)) 0xD011
    t.gfx = Gfx.blank.flip 0 0 ∧ t.getV 0xF = 1 := by decide
theorem test_ret : (runWord (oneFrame r 0x302) 0x00EE).pc = 0x302 ∧ (runWord (oneFrame r 0x302) 0x00EE).sp = 0 ∧
    (runWord (oneFrame r 0x302) 0x00EE).stack[0] = 0x302 ∧ (runWord (oneFrame r 0x302) 0x01EE).pc = 0x302 := by decide
theorem test_ret_underflow : reasonOf (runWord r 0x00EE) = some .stackUnderflow ∧ (runWord r 0x00EE).pc = 0x200 := by
  decide
theorem test_jp : (runWord r 0x1FFE).pc = 0xFFE ∧ (runWord r 0x1203).pc = 0x203 := by decide
theorem test_jp_outside : reasonOf (runWord r 0x1FFF) = some (.invalidAddress .jump 0xFFF) ∧
    (runWord r 0x1FFF).pc = 0x200 := by decide
theorem test_call : (runWord (r.setPc 0x300) 0x2400).pc = 0x400 ∧ (runWord (r.setPc 0x300) 0x2400).sp = 1 ∧
    (runWord (r.setPc 0x300) 0x2400).stack[0] = 0x302 ∧ (runWord (r.setPc 0xFFE) 0x2200).stack[0] = 0x1000 := by decide
theorem test_call_overflow : reasonOf (runWord (withSp r 16) 0x2400) = some .stackOverflow ∧
    (runWord (withSp r 16) 0x2400).sp = 16 := by decide
theorem test_jpV0 : (runWord (r.setV 0 0xFE) 0xB001).pc = 0x0FF ∧ (runWord r 0xBFFE).pc = 0xFFE := by decide
theorem test_jpV0_outside : reasonOf (runWord (r.setV 0 0xFF) 0xBF00) = some (.invalidAddress .jump 0xFFF) ∧
    reasonOf (runWord (r.setV 0 0xFF) 0xBFFF) = some (.invalidAddress .jump 0x10FE) := by decide
theorem test_seImm : (runWord (r.setV 0 0xFF) 0x30FF).pc = 0x204 ∧ (runWord r 0x30FF).pc = 0x202 := by decide
theorem test_sneImm : (runWord (r.setV 0 0xFF) 0x40FF).pc = 0x202 ∧ (runWord r 0x4001).pc = 0x204 := by decide
theorem test_seReg : (runWord ((r.setV 1 4).setV 2 4) 0x5120).pc = 0x204 ∧ (runWord (r.setV 2 4) 0x5120).pc = 0x202 := by
  decide
theorem test_sneReg : (runWord ((r.setV 1 4).setV 2 5) 0x9120).pc = 0x204 ∧
    (runWord (r.setV 1 9) 0x9110).pc = 0x202 := by decide
theorem test_skp : (runWord (((r.setV 5 0xA).latch ⟨0x0400, [], false, 0⟩)) 0xE59E).pc = 0x204 ∧
    (runWord (r.setV 5 0xA) 0xE59E).pc = 0x202 := by decide
theorem test_skp_index : reasonOf (runWord (r.setV 5 0x10) 0xE59E) = some (.keyIndexOutOfRange 0x10) := by decide
theorem test_sknp : (runWord (((r.setV 5 0xA).latch ⟨0x0400, [], false, 0⟩)) 0xE5A1).pc = 0x202 ∧
    (runWord (r.setV 5 0xA) 0xE5A1).pc = 0x204 := by decide
theorem test_sknp_index : reasonOf (runWord (r.setV 5 0xFF) 0xE5A1) = some (.keyIndexOutOfRange 0xFF) := by decide
theorem test_ldImm : (runWord r 0x6AFF).getV 0xA = 0xFF ∧ (runWord r 0x6AFF).pc = 0x202 := by decide
theorem test_addImm : (runWord ((r.setV 0xA 1).setV 0xF 0x77) 0x7AFF).getV 0xA = 0 ∧
    (runWord ((r.setV 0xA 1).setV 0xF 0x77) 0x7AFF).getV 0xF = 0x77 := by decide
theorem test_ldReg : (runWord (r.setV 1 0x33) 0x8010).getV 0 = 0x33 := by decide
theorem test_orReg : (runWord (((r.setV 0 0xF0).setV 1 0x0F).setV 0xF 1) 0x8011).getV 0 = 0xFF ∧
    (runWord (((r.setV 0 0xF0).setV 1 0x0F).setV 0xF 1) 0x8011).getV 0xF = 1 := by decide
theorem test_andReg : (runWord ((r.setV 0 0xF0).setV 1 0x3C) 0x8012).getV 0 = 0x30 := by decide
theorem test_xorReg : (runWord ((r.setV 0 0xFF).setV 1 0x0F) 0x8013).getV 0 = 0xF0 := by decide
theorem test_addReg : (runWord ((r.setV 0 0xFF).setV 1 1) 0x8014).getV 0 = 0 ∧
    (runWord ((r.setV 0 0xFF).setV 1 1) 0x8014).getV 0xF = 1 := by decide
theorem test_addReg_vf : (runWord ((r.setV 0xF 0x10).setV 1 0xF0) 0x8F14).getV 0xF = 1 ∧
    (runWord ((r.setV 0 0x10).setV 0xF 0xFF) 0x80F4).getV 0 = 0x0F := by decide
theorem test_subReg : (runWord ((r.setV 0 5).setV 1 9) 0x8015).getV 0 = 0xFC ∧
    (runWord ((r.setV 0 5).setV 1 9) 0x8015).getV 0xF = 0 := by decide
theorem test_subReg_equal : (runWord (((r.setV 0 7).setV 1 7).setV 0xF 1) 0x8015).getV 0xF = 0 ∧
    (runWord ((r.setV 0xF 5).setV 1 3) 0x8F15).getV 0xF = 1 := by decide
theorem test_shr : (runWord ((r.setV 0 0x80).setV 1 0xFF) 0x8016).getV 0 = 0x40 ∧
    (runWord (r.setV 0 5) 0x8006).getV 0xF = 1 := by decide
theorem test_subnReg : (runWord ((r.setV 0 1).setV 1 0) 0x8017).getV 0 = 0xFF ∧
    (runWord ((r.setV 0 5).setV 1 9) 0x8017).getV 0xF = 1 := by decide
theorem test_shl : (runWord (r.setV 0 0x81) 0x801E).getV 0 = 2 ∧ (runWord (r.setV 0 0x81) 0x801E).getV 0xF = 1 := by
  decide
theorem test_ldI : (runWord r 0xAFFF).i = 0xFFF := by decide
theorem test_rnd : (runWord (r.latch ⟨0, [], false, 0xA7⟩) 0xC30F).getV 3 = 7 := by decide
theorem test_addIVx : (runWord ((r.setI 0xFFF).setV 1 1) 0xF11E).i = 0x1000 ∧
    (runWord ((r.setI 0xFFFF).setV 1 1) 0xF11E).i = 0 := by decide
theorem test_addIVx_flag : (runWord (flagged (((r.setI 0xFFF).setV 1 1).setV 0xF 7)) 0xF11E).getV 0xF = 1 ∧
    (runWord (flagged ((r.setI 0x100).setV 0xF 0x20)) 0xFF1E).i = 0x120 ∧
    (runWord (flagged ((r.setI 0x100).setV 0xF 0x20)) 0xFF1E).getV 0xF = 0 := by decide
theorem test_ldFVx : (runWord (r.setV 0 0xA) 0xF029).i = 0x032 ∧ (runWord (r.setV 0 0xFF) 0xF029).i = 0x4FB := by decide
theorem test_ldBVx : (runWord ((r.setI 0x300).setV 0 156) 0xF033).readBytes 0x300 3 = [1, 5, 6] ∧
    (runWord ((r.setI 0xFFD).setV 0 0x7B) 0xF033).readBytes 0xFFD 3 = [1, 2, 3] := by decide
theorem test_ldBVx_stops : reasonOf (runWord (r.setI 0xFFE) 0xF033) = some (.invalidAddress .data 0x1000) ∧
    reasonOf (runWord (guarded (r.setI 0x100)) 0xF033) = some (.protectedAddress .data 0x100) := by decide
theorem test_ldMemVx : let t := runWord ((((r.setI 0x400).setV 0 1).setV 1 2).setV 2 3) 0xF255
    t.readBytes 0x400 4 = [1, 2, 3, 0] ∧ t.i = 0x400 ∧ t.pc = 0x202 := by decide
theorem test_ldMemVx_stops : reasonOf (runWord (r.setI 0xFFF) 0xF155) = some (.invalidAddress .data 0x1000) ∧
    (runWord ((r.setI 0xFFF).setV 0 9) 0xF155).readByte 0xFFF = 0 := by decide
theorem test_ldVxMem : let t := runWord ((r.setI 0xFF0).writeByte 0xFFF 0xAB) 0xFF65
    t.getV 0xF = 0xAB ∧ t.getV 0xE = 0 ∧ t.i = 0xFF0 := by decide
theorem test_ldVxMem_low : (runWord (guarded r) 0xF065).getV 0 = 0xF0 ∧
    reasonOf (runWord (r.setI 0xFF1) 0xFF65) = some (.invalidAddress .data 0x1000) := by decide
theorem test_ldVxDt : (runWord (r.setDt 0x3C) 0xF307).getV 3 = 0x3C := by decide
theorem test_ldVxK : (runWord r 0xF20A).mode = .waitingForKey 2 ∧ (runWord r 0xF20A).pc = 0x200 := by decide
theorem test_ldDtVx : (runWord (r.setV 0 3) 0xF015).dt = 3 := by decide
theorem test_ldStVx : (runWord (r.setV 1 0x1E) 0xF118).st = 0x1E ∧ (runWord (r.setV 1 0x1E) 0xF118).toneOut = true ∧
    (runWord (r.setSt 5) 0xF018).toneOut = false := by decide

/-! ### The driver (the last tables of L2) -/

theorem test_unknown_word : (runWord r 0x5121).pc = 0x202 ∧ (runWord r 0x5121).reportOut = some (0x200, 0x5121) ∧
    (runWord r 0x5121).mode = .running := by decide
theorem test_ret_form_unknown_under_full_mask : (runWord (fullMask (oneFrame r 0x302)) 0x01EE).pc = 0x202 ∧
    (runWord (fullMask (oneFrame r 0x302)) 0x01EE).sp = 1 := by decide
theorem test_fetch_outside : reasonOf (runTick (r.setPc 0xFFF) (.instr idle)) = some (.invalidAddress .fetch 0xFFF) := by
  decide
theorem test_fetch_guarded :
    reasonOf (runTick (guarded (r.setPc 0x100)) (.instr idle)) = some (.protectedAddress .fetch 0x100) := by decide
theorem test_quit : reasonOf (runTick r (.instr ⟨0, [5], true, 0⟩)) = some .userQuit ∧
    (runTick r (.instr ⟨0, [5], true, 0⟩)).pc = 0x200 := by decide
theorem test_quit_while_waiting : reasonOf (runTick (r.setMode (.waitingForKey 3)) (.instr ⟨0, [5], true, 0⟩)) =
    some .userQuit ∧ (runTick (r.setMode (.waitingForKey 3)) (.instr ⟨0, [5], true, 0⟩)).getV 3 = 0 := by decide
theorem test_key_wait_ends : let t := runTick (r.setMode (.waitingForKey 3)) (.instr ⟨0, [9, 2], false, 0⟩)
    t.getV 3 = 9 ∧ t.pc = 0x202 ∧ t.mode = .running := by decide
theorem test_held_key_ends_no_wait :
    (runTick (r.setMode (.waitingForKey 3)) (.instr ⟨0x20, [], false, 0⟩)).mode = .waitingForKey 3 := by decide
theorem test_keys_latched :
    (runTick (r.setMode (.waitingForKey 3)) (.instr ⟨0x0420, [], false, 0⟩)).keys = 0x0420 ∧
    (runTick (r.latch ⟨0x0420, [], false, 0⟩) (.instr idle)).keys = 0 := by decide
theorem test_timer_tick : (runTick ((r.setDt 2).setSt 1) .timer).dt = 1 ∧ (runTick ((r.setDt 2).setSt 1) .timer).st = 0 ∧
    (runTick r .timer).dt = 0 := by decide
theorem test_timer_tick_waiting : (runTick (((r.setDt 5).setSt 5).setMode (.waitingForKey 3)) .timer).st = 4 := by decide
theorem test_timer_tick_halted : (runTick (((r.setDt 5).setSt 5).enterHalt .userQuit none) .timer).dt = 5 ∧
    (runTick (((r.setDt 5).setSt 5).enterHalt .userQuit none) .timer).toneOut = false := by decide
theorem test_font : r.readBytes 0 5 = [0xF0, 0x90, 0x90, 0x90, 0xF0] ∧ r.readBytes 0x4B 5 = [0xF0, 0x80, 0xF0, 0x80, 0x80] ∧
    r.readBytes 0x50 2 = [0, 0] := by decide
theorem test_init : (State.init Config.default (.bytes [0x60, 5])).map (fun s => (s.readBytes 0x200 3, s.pc)) =
    some ([0x60, 5, 0], 0x200) ∧ State.init Config.default .ioError = none := by decide
theorem test_init_too_long (rom : List Byte) (h : rom.length = 3585) :
    State.init Config.default (.bytes rom) = none := if_pos (by rw [h]; decide)
/-- R286 with two instruction ticks for each timer tick. -/
theorem test_reference_schedule : referenceSchedule 2 [idle, idle, idle] =
    [.instr idle, .instr idle, .timer, .instr idle] := by decide

/-! ### Witnesses: a concrete state and operands that meet the hypotheses of each statement, every clause at its boundary -/

/-- `r` about to run the word, and its tick. -/
def at_ (s : State) (w : Nat) : State := s.withFetchWord 16 w

theorem witness_DecodeOfEncodeIsIdentity : (Instr.ret 0).wellFormed .fullWord = true ∧
    (Instr.ret 15).wellFormed .lowByte = true := by decide
theorem witness_EncodeOfDecodeIsIdentity : decodeWord .fullWord 0x00E0 = some (.cls 0) ∧
    decodeWord .lowByte 0x0FEE = some (.ret 0xF) := by decide
theorem witness_DecodeFollowsMatchMaskTable : decodeWord .lowByte 0x800E = some (.shl 0 0) ∧
    (⟨0x800E, 0xF00F⟩ : OpcodeRow) ∈ opcodeRows .lowByte ∧ OpcodeRow.selects ⟨0x800E, 0xF00F⟩ 0x800E = true := by decide
/-- PC at 0x200 and, under LOW_GUARD, at the two ends of what may be fetched. -/
theorem witness_StepRunsDecodedInstruction : (at_ r 0x6AFF).InstrTickNext idle ∧ (at_ r 0x6AFF).mode = .running ∧
    (at_ (guarded (r.setPc 0xFFE)) 0x6AFF).pc.toNat = 0xFFE ∧ (at_ (guarded r) 0x6AFF).pc.toNat = 0x200 ∧
    decode .lowByte [(at_ r 0x6AFF).readByte 0x200, (at_ r 0x6AFF).readByte 0x201] = .instr (.ldImm 0xA 0xFF) [] :=
  ⟨⟨rfl, rfl⟩, rfl, by decide, by decide, by decide⟩
theorem witness_StepRunsDecodedInstruction_below : (at_ (r.setPc 0x1FF) 0x6AFF).InstrTickNext idle ∧
    (at_ (r.setPc 0x1FF) 0x6AFF).pc.toNat = 0x1FF ∧ (at_ (r.setPc 0x1FF) 0x6AFF).cfg.lowGuard = false ∧
    decode .lowByte [(at_ (r.setPc 0x1FF) 0x6AFF).readByte 0x1FF, (at_ (r.setPc 0x1FF) 0x6AFF).readByte 0x200] =
      .instr (.ldImm 0xA 0xFF) [] := ⟨⟨rfl, rfl⟩, by decide, rfl, by decide⟩
theorem witness_UnknownWordIsReportedAndSkipped : (at_ (r.setPc 0xFFE) 0x5121).InstrTickNext idle ∧
    (at_ (r.setPc 0xFFE) 0x5121).mode = .running ∧ (at_ (r.setPc 0xFFE) 0x5121).DrawOk ∧
    (at_ (r.setPc 0xFFE) 0x5121).pc.toNat ≤ 0xFFE ∧ (at_ (r.setPc 0xFFE) 0x5121).cfg.lowGuard = false ∧
    decodeWord .lowByte (wordOfBytes ((at_ (r.setPc 0xFFE) 0x5121).readByte 0xFFE)
      ((at_ (r.setPc 0xFFE) 0x5121).readByte 0xFFF)) = none :=
  ⟨⟨rfl, rfl⟩, rfl, rfl, by decide, rfl, by decide⟩
/-- PC = 0xFFF, and PC = 0x1FF under LOW_GUARD; the clauses exclude each other. -/
theorem witness_BadFetchHalts : (withTick (r.setPc 0xFFF) (.instr idle)).InstrTickNext idle ∧
    (withTick (r.setPc 0xFFF) (.instr idle)).DrawOk ∧ (withTick (r.setPc 0xFFF) (.instr idle)).pc.toNat > 0xFFE ∧
    (withTick (guarded (r.setPc 0x1FF)) (.instr idle)).cfg.lowGuard = true ∧
    (withTick (guarded (r.setPc 0x1FF)) (.instr idle)).pc.toNat < 0x200 :=
  ⟨⟨rfl, rfl⟩, rfl, by decide, rfl, by decide⟩
theorem witness_QuitHaltsBeforeExecution :
    (withTick r (.instr ⟨0, [], true, 0⟩)).nextTick.1 = .instr ⟨0, [], true, 0⟩ ∧
    (withTick r (.instr ⟨0, [], true, 0⟩)).mode.isHalted = false ∧ (withTick r (.instr ⟨0, [], true, 0⟩)).DrawOk :=
  ⟨rfl, rfl, rfl⟩
/-- Both clauses: without and with a key-down event. -/
theorem witness_KeyWaitTakesFirstKeyDown :
    (withTick (r.setMode (.waitingForKey 0xF)) (.instr idle)).InstrTickNext idle ∧ idle.keydownIn = [] ∧
    (withTick (r.setMode (.waitingForKey 0xF)) (.instr ⟨0, [0xE], false, 0⟩)).InstrTickNext ⟨0, [0xE], false, 0⟩ ∧
    (withTick (r.setMode (.waitingForKey 0xF)) (.instr idle)).mode = .waitingForKey 0xF ∧
    (withTick (r.setMode (.waitingForKey 0xF)) (.instr idle)).DrawOk := ⟨⟨rfl, rfl⟩, rfl, ⟨rfl, rfl⟩, rfl, rfl⟩
/-- With the timers at 0 and at 1. -/
theorem witness_TimerTickDecrementsBothTimers : (withTick (r.setDt 1) .timer).nextTick.1 = .timer ∧
    (withTick (r.setDt 1) .timer).mode.isHalted = false ∧ (withTick (r.setDt 1) .timer).st = 0 := ⟨rfl, rfl, rfl⟩
theorem witness_HaltedIsTerminal : (r.enterHalt .userQuit none).mode.isHalted = true := rfl
/-- A CLS, a DRW that draws, a DRW that faults, and neither. -/
theorem witness_FramesComeFromClsAndDrw : (at_ r 0x00E0).InstrTickNext idle ∧ (at_ r 0x00E0).mode = .running ∧
    (at_ r 0x00E0).DrawOk ∧ (at_ r 0x00E0).pc.toNat ≤ 0xFFE ∧ (at_ r 0x00E0).cfg.lowGuard = false ∧
    decodeWord .lowByte (at_ r 0x00E0).fetchWord = some (.cls 0) ∧
    decodeWord .lowByte (at_ r 0xD01F).fetchWord = some (.drw 0 1 0xF) ∧
    (runWord (r.setI 0xFF1) 0xD01F).frameOut.isSome = true ∧ (runWord (r.setI 0xFF2) 0xD01F).mode.isHalted = true ∧
    decodeWord .lowByte (at_ r 0x6AFF).fetchWord = some (.ldImm 0xA 0xFF) :=
  ⟨⟨rfl, rfl⟩, rfl, rfl, by decide, rfl, by decide, by decide, by decide, by decide, by decide⟩
/-- Lengths 3584 and 3585. -/
theorem witness_InitSeedsFontAndRom : (List.replicate 3585 (0 : Byte)).length > 3584 ∧
    (List.replicate 3584 (0 : Byte)).length ≤ 3584 := by
  rw [List.length_replicate, List.length_replicate]; decide
/-- A state that meets every invariant and whose next step stores to memory: MemoryFormKeptByEveryStep,
DiagnosticMatchesHaltedState, DrawFlagClearBetweenTicks, ParametersNeverChange. -/
theorem witness_InvariantsKept : (at_ r 0xF033).MemOk ∧ (at_ r 0xF033).PcOk ∧ (at_ r 0xF033).DiagOk ∧
    (at_ r 0xF033).DrawOk ∧ ∃ t, step (at_ r 0xF033) = .next t :=
  ⟨by unfold State.MemOk; decide, ⟨by decide, by decide, fun _ h => by cases h⟩, fun _ h => (by cases h), rfl, _, rfl⟩
/-- First clause: a halted state meets DiagOk through its diagnostic, and it steps. -/
theorem witness_DiagnosticMatchesHaltedState : (withTick (r.enterHalt .userQuit none) .timer).DiagOk ∧
    ∃ t, step (withTick (r.enterHalt .userQuit none) .timer) = .next t :=
  ⟨fun _ h => (by cases h; exact ⟨rfl, rfl, rfl, rfl, rfl⟩), _, rfl⟩
/-- Second clause: a step that halts. -/
theorem witness_DiagnosticMatchesHaltedState_halt : (at_ (r.setI 5) 0x00EE).mode.isHalted = false ∧
    ∃ t d, step (at_ (r.setI 5) 0x00EE) = .next t ∧ t.mode = .halted d := ⟨rfl, _, _, rfl, rfl⟩
/-- The invariants on a state whose next step is a CALL at the last word of memory. -/
theorem witness_PcNeverWrapsInAnyStep : (at_ (r.setPc 0xFFE) 0x2FFF).PcOk ∧ ∃ t, step (at_ (r.setPc 0xFFE) 0x2FFF) = .next t :=
  ⟨⟨by decide, by decide, fun _ h => by cases h⟩, _, rfl⟩
/-- One halting instruction for each line of the statement, at the boundary of its check. -/
theorem witness_OnlyListedInstructionsFault : r.mode.isHalted = false ∧
    (∃ t d, exec (.ret 0) r = .next t ∧ t.mode = .halted d) ∧
    reasonOf (runWord r 0x00EE) = some .stackUnderflow ∧ reasonOf (runWord (withSp r 16) 0x2400) = some .stackOverflow ∧
    reasonOf (runWord r 0x1FFF) = some (.invalidAddress .jump 0xFFF) ∧
    reasonOf (runWord (r.setV 5 0x10) 0xE59E) = some (.keyIndexOutOfRange 0x10) ∧
    reasonOf (runWord (r.setI 0xFF2) 0xD01F) = some (.invalidAddress .data 0x1000) ∧
    reasonOf (runWord (guarded (r.setI 0x1FF)) 0xF055) = some (.protectedAddress .data 0x1FF) :=
  ⟨rfl, ⟨_, _, rfl, rfl⟩, by decide⟩
theorem witness_FaultingInstructionHasNoEffect : r.mode.isHalted = false ∧
    ∃ t d, exec (.jp 0xFFF) r = .next t ∧ t.mode = .halted d := ⟨rfl, _, _, rfl, rfl⟩
theorem witness_OnlyClsAndDrwChangeDisplay : (∀ ign, Instr.ldI 0 ≠ .cls ign) ∧ (∀ x y n, Instr.ldI 0 ≠ .drw x y n) ∧
    ∃ t, exec (.ldI 0) r = .next t := ⟨by simp, by simp, _, rfl⟩
theorem witness_OnlyStoresChangeMemory : (∀ x, Instr.ldVxMem 0 ≠ .ldBVx x) ∧ (∀ x, Instr.ldVxMem 0 ≠ .ldMemVx x) ∧
    ∃ t, exec (.ldVxMem 0) r = .next t := ⟨by simp, by simp, _, rfl⟩
theorem witness_OnlyCallAndRetMoveStack : (∃ t, exec (.call 0x300) (withSp r 15) = .next t) ∧
    (∃ t, exec (.ret 0) (withSp r 16) = .next t) ∧ ∃ t, exec (.ldI 0) r = .next t := ⟨⟨_, rfl⟩, ⟨_, rfl⟩, ⟨_, rfl⟩⟩
theorem witness_PcAdvancesByTwo : r.mode = .running ∧ (∃ t, exec (.drw 0 1 5) r = .next t ∧ t.mode = .running) ∧
    (∀ nnn, Instr.drw 0 1 5 ≠ .jp nnn) ∧ (∀ x, Instr.drw 0 1 5 ≠ .skp x) := ⟨rfl, ⟨_, rfl, rfl⟩, by simp, by simp⟩
theorem witness_InstructionsLeaveInputsAlone : ∃ t, exec (.skp 0) r = .next t := ⟨_, rfl⟩
/-- I + n = 4096, and n = 0 with I outside memory. -/
theorem witness_DrwFlipsExactlySpritePixels : (r.setI 0xFF1).InMemory 15 ∧ (r.setI 0xFFFF).InMemory 0 ∧
    SpriteCovers r 0 1 5 0 0 ∧ ¬ SpriteCovers r 0 1 0 0 0 :=
  ⟨.inr (by decide), .inl rfl, ⟨0, 0, by decide⟩, fun ⟨_, _, h, _⟩ => absurd h (by simp)⟩
theorem witness_DrwOutsideMemoryHalts : ¬ (r.setI 0xFF2).InMemory 15 := by unfold State.InMemory; decide
theorem witness_DrwTwiceRestoresDisplay : (0 : Nibble) ≠ 0xF ∧ (1 : Nibble) ≠ 0xF ∧ r.InMemory (5 : Nibble).toNat ∧
    (∀ cx cy, r.gfx.pixel cx cy = false) ∧ ∃ cx cy, SpriteCovers r 0 1 5 cx cy :=
  ⟨by decide, by decide, .inr (by decide), Gfx.pixel_blank, 0, 0, 0, 0, by decide⟩
theorem witness_RetPopsOrUnderflows : r.sp = 0 ∧ (withSp r 1).sp.val = (0 : Fin 16).val + 1 ∧
    (withSp r 16).sp.val = (15 : Fin 16).val + 1 := by decide
theorem witness_JpJumpsOrHalts : (0xFFE : Addr).toNat < 4095 ∧ (0xFFF : Addr).toNat ≥ 4095 := by decide
theorem witness_CallPushesOrOverflows : (withSp r 16).sp.val = 16 ∧ (withSp r 15).sp.val = (15 : Fin 16).val ∧
    r.sp.val = (0 : Fin 16).val := by decide
theorem witness_JpV0JumpsOrHalts : ((r.setV 0 0xFF).getV 0).toNat + (0xEFF : Addr).toNat < 4095 ∧
    ((r.setV 0 0xFF).getV 0).toNat + (0xF00 : Addr).toNat ≥ 4095 := by decide
theorem witness_CallThenRetComesBack : (withSp r 15).sp.val < 16 := by decide
theorem witness_SkipsOnRegister : (1 : Nibble) ≠ 0 ∧ (0xF : Nibble) ≠ 0 := by decide
theorem witness_SkipsOnKey : ((r.setV 5 0xF).getV 5).toNat ≤ 0xF ∧ ((r.setV 5 0x10).getV 5).toNat > 0xF := by decide
/-- SKP and SKNP at PC with the key index 0xF, and a tick whose keys_in differs from the snapshot before it. -/
theorem witness_SkipsOnKey_step :
    let s := withTick (at_ (r.setV 5 0xF) 0xE59E) (.instr ⟨0x8000, [], false, 0⟩)
    s.InstrTickNext ⟨0x8000, [], false, 0⟩ ∧ s.mode = .running ∧ s.pc.toNat ≤ 0xFFE ∧ s.cfg.lowGuard = false ∧
      (s.getV 5).toNat ≤ 0xF ∧ decodeWord .lowByte s.fetchWord = some (.skp 5) ∧
      decodeWord .lowByte (at_ (r.setV 5 0xF) 0xE5A1).fetchWord = some (.sknp 5) :=
  ⟨⟨rfl, rfl⟩, rfl, by decide, rfl, by decide, by decide, by decide⟩
/-- The last clause: an instruction tick in Running and in WaitingForKey, without and with a quit. -/
theorem witness_SkipsOnKey_latch : (withTick r (.instr ⟨1, [], false, 0⟩)).nextTick.1 = .instr ⟨1, [], false, 0⟩ ∧
    (withTick (r.setMode (.waitingForKey 3)) (.instr ⟨1, [], true, 0⟩)).mode.isHalted = false := ⟨rfl, rfl⟩
theorem witness_RndMasksRandomByteOfItsTick : (at_ r 0xC30F).InstrTickNext idle ∧ (at_ r 0xC30F).mode = .running ∧
    (at_ r 0xC30F).pc.toNat ≤ 0xFFE ∧ (at_ r 0xC30F).cfg.lowGuard = false ∧
    decodeWord .lowByte (at_ r 0xC30F).fetchWord = some (.rnd 3 0x0F) :=
  ⟨⟨rfl, rfl⟩, rfl, by decide, rfl, by decide⟩
theorem witness_AddIWrapsAndMaySetVF : r.cfg.fx1eSetsVF = false ∧ (flagged r).cfg.fx1eSetsVF = true := by decide
/-- The last block in memory, the lowest without LOW_GUARD and the lowest under it. -/
theorem witness_LdBStoresDecimalDigits : (r.setI 0xFFD).Writable 3 ∧ (r.setI 0).Writable 3 ∧
    (guarded (r.setI 0x200)).Writable 3 := by unfold State.Writable State.InMemory; decide
theorem witness_LdMemStoresRegisters : (r.setI 0xFF0).Writable ((0xF : Nibble).toNat + 1) ∧
    (r.setI 0xFFF).Writable ((0 : Nibble).toNat + 1) ∧ (guarded (r.setI 0x200)).Writable 16 := by
  unfold State.Writable State.InMemory; decide
theorem witness_LdVxMemLoadsRegisters : (r.setI 0xFF0).InMemory ((0xF : Nibble).toNat + 1) ∧
    (guarded r).InMemory ((0xF : Nibble).toNat + 1) := by unfold State.InMemory; decide
/-- Each clause at its boundary: I = 0xFFE, I + x = 0x1000, I = 0x1FF under LOW_GUARD. -/
theorem witness_BadTransferHaltsWithoutEffect : ¬ (r.setI 0xFFE).InMemory 3 ∧ (r.setI 0xFFE).cfg.lowGuard = false ∧
    ¬ (guarded (r.setI 0xFF1)).InMemory ((0xF : Nibble).toNat + 1) ∧ 0x200 ≤ (guarded (r.setI 0xFF1)).i.toNat ∧
    (guarded (r.setI 0x1FF)).cfg.lowGuard = true ∧ (guarded (r.setI 0x1FF)).i.toNat < 0x200 := by
  unfold State.InMemory; decide
theorem witness_StoreThenLoadRestoresRegisters : (guarded (r.setI 0x200)).Writable ((0xF : Nibble).toNat + 1) := by
  unfold State.Writable State.InMemory; decide
theorem witness_TimerMoves : r.mode.isHalted = false := rfl
/-- Timer ticks and idle instruction ticks by turns: an admitted schedule. -/
def byTurns (k : Nat) : Tick := if k % 2 = 0 then .timer else .instr idle
theorem witness_byTurns_weaklyFair : WeaklyFair byTurns := fun k =>
  ⟨⟨2 * k, by omega, if_pos (by omega)⟩, 2 * k + 1, idle, by omega, if_neg (by omega)⟩
/-- Second clause of WaitingOnlyTimersFall, with two ticks of the schedule. -/
theorem witness_WaitingOnlyTimersFall_fair : (∀ j inp, byTurns j = .instr inp → inp.keydownIn = [] ∧ inp.quitIn = false) ∧
    let s := withTick (withTick (r.setMode (.waitingForKey 3)) (.instr idle)) .timer
    s.mode = .waitingForKey 3 ∧ s.DrawOk ∧ s.ticks = (List.range 2).map byTurns ++ [] := by
  refine ⟨fun j inp h => ?_, rfl, rfl, by decide⟩
  unfold byTurns at h
  split at h
  · cases h
  · cases h; exact ⟨rfl, rfl⟩
/-- The fixed ticks of a fair schedule: here at 1 (a timer tick) and 3 (an instruction tick), the others unfixed. -/
theorem test_fairTick : (List.range 4).map (fairTick (fun _ => 1) (fun _ => .timer) (fun _ => idle)) =
    [.timer, .timer, .timer, .instr idle] := by decide
theorem test_schedule : (withTick (withTick r (.instr idle)) .timer).schedule 0 = .timer ∧
    (withTick (withTick r (.instr idle)) .timer).schedule 1 = .instr idle := by decide
/-- A schedule with a timer tick and an instruction tick. -/
theorem witness_WaitingOnlyTimersFall :
    let s := withTick (withTick (r.setMode (.waitingForKey 3)) (.instr idle)) .timer
    s.mode = .waitingForKey 3 ∧ s.DrawOk ∧ s.ticks = [.timer, .instr idle] ++ [] ∧
      ∀ inp, Tick.instr inp ∈ [Tick.timer, .instr idle] → inp.keydownIn = [] ∧ inp.quitIn = false :=
  ⟨rfl, rfl, rfl, by intro inp h; simp at h; subst h; exact ⟨rfl, rfl⟩⟩
/-- Fewer than n instruction ticks, and exactly n with some left. -/
theorem witness_ReferenceScheduleHasOneTimerTickPerN : 0 < 2 ∧ [idle].length < 2 ∧
    [idle, idle, idle] = [idle, idle] ++ [idle] ∧ [idle, idle].length = 2 := by decide

end Sys2Proof.Tests
end

section
/-! Proofs of the family Encoding: the decoder's fields as bits of the word (30_encoding.md R72). -/

namespace Sys2Proof.Encoding

open Sys2Proof

/-- The bits `k` to `k + len - 1` of a word, widened again, are the word under the mask of those bits, shifted down. -/
theorem setWidth_extractLsb'_eq_mask_shift {w : Nat} (v : BitVec w) (k len : Nat) :
    (v.extractLsb' k len).setWidth w = (v &&& ((BitVec.allOnes len).setWidth w <<< k)) >>> k := by
  ext i hi
  by_cases hin : k + i < w
  · simp [hin, Bool.and_comm]
  · have hout : v.getLsbD (k + i) = false := BitVec.getLsbD_of_ge v (k + i) (by omega)
    simp [hout]

/-- Settles O1: each field is `BitVec.extractLsb'` of the word, and its mask is the `len` ones shifted to its place. -/
theorem fieldsAreMaskedBits : Obligations.FieldsAreMaskedBits := by
  intro op
  have low (len : Nat) : (op.extractLsb' 0 len).setWidth 16 = op &&& (BitVec.allOnes len).setWidth 16 := by
    simpa using setWidth_extractLsb'_eq_mask_shift op 0 len
  exact ⟨setWidth_extractLsb'_eq_mask_shift op 8 4, setWidth_extractLsb'_eq_mask_shift op 4 4, low 12, low 8, low 4⟩

end Sys2Proof.Encoding
end

section
/-! Proofs of the family Cycle: the tick of an Unknown word (40_cycle.md R106). -/

namespace Sys2Proof.Cycle

open Sys2Proof Sys2Proof.Machine

/-- A report and a new PC leave every other component as it was. -/
theorem report_keeps (s : State) (report : Option (Word × Word)) (pc : Word) :
    KeepsExcept [.pc, .reportOut] s { s with reportOut := report, pc := pc } := by
  intro c hc
  cases c with
  | pc | reportOut => simp at hc
  | mem | v => exact fun _ => rfl
  | _ => rfl

/-- The whole tick of an Unknown word (R106), with no frame waiting for the hand-off. -/
theorem step_unknown {s : State} {inp : TickInput} (ht : s.InstrTickNext inp) (hm : s.mode = .running)
    (hdraw : s.DrawOk) (hp : s.pc.toNat ≤ 0xFFE) (hg : s.cfg.lowGuard = false ∨ 0x200 ≤ s.pc.toNat)
    (hd : decodeWord s.cfg.zeroGroupMask s.fetchWord = none) :
    step s = .next { s.latched inp with reportOut := some (s.pc, s.fetchWord), pc := s.pc + 2 } := by
  have hfetch : (s.latched inp).fetchAndExecute =
      .next { s.latched inp with reportOut := some (s.pc, s.fetchWord), pc := s.pc + 2 } := by
    simpa using State.fetchAndExecute_unknown (s := s.latched inp) hp hg (by simpa using hd)
  rw [step_running ht hm, hfetch]
  exact congrArg Host.Outcome.next (State.handOff_of_clear hdraw)

/-- Settles O8: the step is one record update of the latched state, and the latch keeps the mode and starts with no output. -/
theorem unknownWordIsReportedAndSkipped : Obligations.UnknownWordIsReportedAndSkipped := by
  intro s inp ht hm hdraw hp hg hd
  exact ⟨_, step_unknown ht hm hdraw hp hg hd, rfl, rfl, hm, rfl, rfl, report_keeps (s.latched inp) _ _⟩

end Sys2Proof.Cycle
end

section
/-! Proofs of the family Display (41_display.md R120, R123, R124): CLS and DRW from what the compositor and the address check do. -/

namespace Sys2Proof.Display

open Sys2Proof Sys2Proof.Machine

/-! ### Frames -/

/-- A new display buffer, draw flag and PC leave every other component as it was. -/
theorem setGfx_setDraw_setPc_keeps (s : State) (g : Gfx) (d : Bool) (pc : Word) :
    KeepsExcept [.gfx, .draw, .pc] s (((s.setGfx g).setDraw d).setPc pc) := by
  intro c hc
  cases c with
  | gfx | draw | pc => simp at hc
  | mem | v => exact fun _ => rfl
  | _ => rfl

/-- A register write leaves every component but the registers as it was. -/
theorem setV_keeps (s : State) (r : Nibble) (b : Byte) : KeepsExcept [.v] s (s.setV r b) := by
  intro c hc
  cases c with
  | v => simp at hc
  | mem => exact fun _ => rfl
  | _ => rfl

/-! ### CLS -/

/-- The word of CLS decodes to CLS under every mask that allows its ignored bits (30_encoding.md R76, R77). -/
theorem decodeWord_encode_cls {m : ZeroGroupMask} {ign : Nibble} (h : m.allows ign = true) :
    decodeWord m (encode (.cls ign)) = some (.cls ign) := by
  obtain ⟨hg, hx, -⟩ := fields_append3 0x0#4 ign 0xE0#8
  have hmask := Laws.and_mask_zero m ign 0xE0#8 h
  simp [encode, decodeWord, decodeZero, hg, hx, hmask]

/-- Settles O31: CLS is one update of the state, and its word is the base 0x00E0 with the ignored bits in the x field. -/
theorem clsClearsScreen : Obligations.ClsClearsScreen := by
  intro ign s
  have hword : encode (.cls ign) = wordX 0x00E0 ign := or_appendX 0x0 ign 0xE0
  have hdec : decodeWord .lowByte (wordX 0x00E0 ign) = some (.cls ign) := hword ▸ decodeWord_encode_cls rfl
  exact ⟨rfl, hdec, ((s.setGfx Gfx.blank).setDraw true).setPc (s.pc + 2), rfl, Gfx.pixel_blank, rfl, rfl,
    setGfx_setDraw_setPc_keeps s _ _ _⟩

/-! ### DRW -/

/-- DRW with its sprite in memory passes the address check (R122): the sprite is drawn and PC advances by 2. -/
theorem exec_drw_of_inMemory {x y n : Nibble} {s : State} (h : s.InMemory n.toNat) :
    exec (.drw x y n) s = .next ((s.drawSprite x y n).setPc (s.pc + 2)) := by
  have hexec : exec (.drw x y n) s =
      finishChecked (.drw x y n) (firstFailing readCheck s.i.toNat n.toNat) s (s.drawSprite x y n) := rfl
  rw [hexec, readBlock_ok.2 h]
  rfl

/-- After a draw VF is the collision flag and every other register is as before (R124). -/
theorem getV_drawSprite (s : State) (x y n r : Nibble) :
    (s.drawSprite x y n).getV r =
      if r = 0xF then
        collisionFlag (plotSprite (s.getV x).toNat (s.getV y).toNat (s.spriteRows n) (s.gfx, false)).2
      else s.getV r := by
  simp [State.drawSprite]

/-- A draw whose sprite clears a set pixel leaves 1 in VF. -/
theorem drawSprite_vf_eq_one {s : State} {x y n : Nibble}
    (h : ∃ cx cy, SpriteCovers s x y n cx cy ∧ s.gfx.pixel cx cy = true) :
    (s.drawSprite x y n).getV 0xF = 1 := by
  have hlatch := (s.drawSprite_plotted x y n).latch.2 (.inr h)
  rw [getV_drawSprite, if_pos rfl, hlatch]
  rfl

/-- A draw whose sprite clears no set pixel leaves 0 in VF. -/
theorem drawSprite_vf_eq_zero {s : State} {x y n : Nibble}
    (h : ∀ cx cy, SpriteCovers s x y n cx cy → s.gfx.pixel cx cy = false) :
    (s.drawSprite x y n).getV 0xF = 0 := by
  have hlatch : (plotSprite (s.getV x).toNat (s.getV y).toNat (s.spriteRows n) (s.gfx, false)).2 = false := by
    rw [Bool.eq_false_iff, ne_eq, (s.drawSprite_plotted x y n).latch]
    rintro (hfalse | ⟨cx, cy, hcov, hset⟩)
    · exact Bool.false_ne_true hfalse
    · exact Bool.false_ne_true ((h cx cy hcov).symm.trans hset)
  rw [getV_drawSprite, if_pos rfl, hlatch]
  rfl

/-- A draw with its advance changes the display, the registers, the draw flag and PC only: it is CLS's kind of update, made
after the write of VF. -/
theorem drawSprite_setPc_keeps (s : State) (x y n : Nibble) (pc : Word) :
    KeepsExcept [.gfx, .v, .draw, .pc] s ((s.drawSprite x y n).setPc pc) :=
  ((setV_keeps s 0xF _).mono (by simp)).trans ((setGfx_setDraw_setPc_keeps (s.setV 0xF _) _ true pc).mono (by simp))

/-- Settles O32: the compositor flips exactly the pixels that the sprite covers, and its latch is the VF that is written last. -/
theorem drwFlipsExactlySpritePixels : Obligations.DrwFlipsExactlySpritePixels := by
  intro x y n s hmem
  have hplot := s.drawSprite_plotted x y n
  refine ⟨_, exec_drw_of_inMemory hmem, hplot.flipped, hplot.kept, drawSprite_vf_eq_one, drawSprite_vf_eq_zero, ?_, rfl, rfl,
    drawSprite_setPc_keeps s x y n _⟩
  intro r hr
  rw [State.setPc_getV, getV_drawSprite, if_neg hr]

end Sys2Proof.Display
end

section
/-! Proofs of the family Flow (42_flow.md R140, R141): RET from what a pop does, JP from what the check of its target does. -/

namespace Sys2Proof.Flow

open Sys2Proof Sys2Proof.Machine

/-! ### Frames -/

/-- A new PC leaves every other component as it was. -/
theorem setPc_keeps (s : State) (pc : Word) : KeepsExcept [.pc] s (s.setPc pc) := by
  intro c hc
  cases c with
  | pc => simp at hc
  | mem | v => exact fun _ => rfl
  | _ => rfl

/-- A pop leaves every component but SP as it was, the stack included (10_state.md R28). -/
theorem pop_keeps {s t : State} {w : Word} (h : s.pop = some (w, t)) : KeepsExcept [.sp] s t := by
  obtain ⟨-, -, rfl⟩ := State.pop_eq_some.1 h
  intro c hc
  cases c with
  | sp => simp at hc
  | mem | v => exact fun _ => rfl
  | _ => rfl

/-! ### RET -/

/-- A pop with k + 1 used slots uncovers entry k and leaves k of them. -/
theorem pop_of_sp_eq_succ {s : State} {k : Fin 16} (h : s.sp.val = k.val + 1) :
    s.pop = some (s.stack[k], { s with sp := k.castSucc }) := by
  have hk : s.sp.val - 1 = k.val := by omega
  refine State.pop_eq_some.2 ⟨by omega, ?_, ?_⟩
  · simp [hk]
  · congr 1
    exact Fin.ext hk.symm

/-- RET with nothing to pop is fault entry (R140). -/
theorem exec_ret_of_pop_eq_none {s : State} {ign : Nibble} (h : s.pop = none) :
    exec (.ret ign) s = .next (s.enterHalt .stackUnderflow (some (encode (.ret ign)))) := by
  simp [exec, execRet, h, finish]

/-- RET jumps to the entry it pops, with no extra advance (R140). -/
theorem exec_ret_of_pop_eq_some {s t : State} {w : Word} {ign : Nibble} (h : s.pop = some (w, t)) :
    exec (.ret ign) s = .next (t.setPc w) := by
  simp [exec, execRet, h, finish]

/-- The word of RET decodes to RET under every mask that allows its ignored bits (30_encoding.md R76, R77). -/
theorem decodeWord_encode_ret {m : ZeroGroupMask} {ign : Nibble} (h : m.allows ign = true) :
    decodeWord m (encode (.ret ign)) = some (.ret ign) := by
  obtain ⟨hg, hx, -⟩ := fields_append3 0x0#4 ign 0xEE#8
  have hmask := Laws.and_mask_zero m ign 0xEE#8 h
  simp [encode, decodeWord, decodeZero, hg, hx, hmask]

/-- Settles O35: with SP = 0 the pop fails and RET is fault entry; otherwise RET is the pop and then the write of PC. -/
theorem retPopsOrUnderflows : Obligations.RetPopsOrUnderflows := by
  intro ign s
  have hword : encode (.ret ign) = wordX 0x00EE ign := or_appendX 0x0 ign 0xEE
  refine ⟨rfl, hword ▸ decodeWord_encode_ret rfl, fun hsp => ?_, fun k hk => ?_⟩
  · have hpop : s.pop = none := State.pop_eq_none.2 (congrArg Fin.val hsp)
    exact ⟨_, exec_ret_of_pop_eq_none hpop, s.enterHalt_spec _ _⟩
  · have hpop := pop_of_sp_eq_succ hk
    exact ⟨_, exec_ret_of_pop_eq_some hpop, rfl, rfl,
      ((pop_keeps hpop).mono (by simp)).trans ((setPc_keeps _ _).mono (by simp))⟩

/-! ### JP -/

/-- JP ends with the outcome of the check of its target (R141). -/
theorem exec_jp (nnn : Addr) (s : State) :
    exec (.jp nnn) s = .next (s.applyOutcome (encode (.jp nnn)) (jumpTo nnn.toNat)) := rfl

/-- JP to a target that passes the check writes PC and nothing else (R141). -/
theorem exec_jp_of_lt {nnn : Addr} {s : State} (h : nnn.toNat < 4095) :
    exec (.jp nnn) s = .next (s.setPc (nnn.setWidth 16)) := by
  rw [exec_jp, jumpTo_of_lt h, State.applyOutcome_jump, BitVec.ofNat_toNat]

/-- JP to a target that fails the check is fault entry (R141). -/
theorem exec_jp_of_ge {nnn : Addr} {s : State} (h : nnn.toNat ≥ 4095) :
    exec (.jp nnn) s = .next (s.enterHalt (.invalidAddress .jump nnn.toNat) (some (encode (.jp nnn)))) := by
  rw [exec_jp, jumpTo_of_ge h, State.applyOutcome_fault]

/-- Settles O36: the check of the target decides between the write of PC and fault entry. -/
theorem jpJumpsOrHalts : Obligations.JpJumpsOrHalts := by
  intro nnn s
  exact ⟨or_append2 0x1 nnn,
    fun hlt => ⟨_, exec_jp_of_lt hlt, rfl, setPc_keeps s _⟩,
    fun hge => ⟨_, exec_jp_of_ge hge, s.enterHalt_spec _ _⟩⟩

end Sys2Proof.Flow
end

section
/-! Proofs of the family Skip (43_skip.md R160 to R163): the byte and register skips from what a skip on a comparison does to PC. -/

namespace Sys2Proof.Skip

open Sys2Proof Sys2Proof.Machine

/-! ### What a skip on a comparison does -/

/-- A skip on equality ends in one write of PC (00_scope.md R13, 40_cycle.md R105). -/
theorem finish_skipIf_beq (i : Instr) (a b : Byte) (s : State) :
    finish i (skipIf (a == b)) s = .next (s.setPc (if a = b then s.pc + 4 else s.pc + 2)) := by
  simp [finish]

/-- A skip on inequality ends in the same write with the two advances exchanged. -/
theorem finish_skipIf_bne (i : Instr) (a b : Byte) (s : State) :
    finish i (skipIf (a != b)) s = .next (s.setPc (if a = b then s.pc + 2 else s.pc + 4)) := by
  by_cases h : a = b <;> simp [finish, h]

/-- SE with a byte (R160). -/
theorem exec_seImm (x : Nibble) (kk : Byte) (s : State) :
    exec (.seImm x kk) s = .next (s.setPc (if s.getV x = kk then s.pc + 4 else s.pc + 2)) :=
  finish_skipIf_beq _ _ _ s

/-- SNE with a byte (R161). -/
theorem exec_sneImm (x : Nibble) (kk : Byte) (s : State) :
    exec (.sneImm x kk) s = .next (s.setPc (if s.getV x = kk then s.pc + 2 else s.pc + 4)) :=
  finish_skipIf_bne _ _ _ s

/-- SE with a register (R162). -/
theorem exec_seReg (x y : Nibble) (s : State) :
    exec (.seReg x y) s = .next (s.setPc (if s.getV x = s.getV y then s.pc + 4 else s.pc + 2)) :=
  finish_skipIf_beq _ _ _ s

/-- SNE with a register (R163). -/
theorem exec_sneReg (x y : Nibble) (s : State) :
    exec (.sneReg x y) s = .next (s.setPc (if s.getV x = s.getV y then s.pc + 2 else s.pc + 4)) :=
  finish_skipIf_bne _ _ _ s

/-! ### The Unknown words of groups 5 and 9 -/

/-- In the two groups of the register skips a word whose function nibble is not 0 is Unknown (30_encoding.md R79). -/
theorem decodeWord_eq_none_of_fieldN_ne_zero (m : ZeroGroupMask) {op : Word} (hg : fieldG op = 0x5 ∨ fieldG op = 0x9)
    (hn : fieldN op ≠ 0) : decodeWord m op = none := by
  obtain hg | hg := hg <;> simpa [decodeWord, hg] using hn

/-- A function nibble other than 0 put into the base word of a register skip gives an Unknown word. -/
theorem decodeWord_wordXY_or_nibble {g n : Nibble} (hg : g = 0x5 ∨ g = 0x9) (hn : n ≠ 0) (m : ZeroGroupMask)
    (x y : Nibble) : decodeWord m (wordXY (g ++ 0#8 ++ 0#4) x y ||| n.setWidth 16) = none := by
  obtain ⟨hfieldG, -, -, hfieldN⟩ := fields_append4 g x y n
  rw [wordXY_or_nibble]
  exact decodeWord_eq_none_of_fieldN_ne_zero m (by rwa [hfieldG]) (by rwa [hfieldN])

/-! ### The obligations -/

/-- Settles O40: each of the two is one write of PC. -/
theorem skipsOnByte : Obligations.SkipsOnByte := by
  intro x kk s
  exact ⟨or_append3 0x3 x kk, or_append3 0x4 x kk,
    ⟨_, exec_seImm x kk s, rfl, Flow.setPc_keeps s _⟩,
    ⟨_, exec_sneImm x kk s, rfl, Flow.setPc_keeps s _⟩⟩

/-- Settles O41: each of the two is one write of PC, and the decoder knows their groups with function nibble 0 only. -/
theorem skipsOnRegister : Obligations.SkipsOnRegister := by
  intro x y s
  exact ⟨or_append4 0x5 x y 0x0, or_append4 0x9 x y 0x0,
    fun m _ hn => ⟨decodeWord_wordXY_or_nibble (g := 0x5) (.inl rfl) hn m x y,
      decodeWord_wordXY_or_nibble (g := 0x9) (.inr rfl) hn m x y⟩,
    ⟨_, exec_seReg x y s, rfl, Flow.setPc_keeps s _⟩,
    ⟨_, exec_sneReg x y s, rfl, Flow.setPc_keeps s _⟩⟩

end Sys2Proof.Skip
end

section
/-! Proofs of the family Alu (44_alu.md R180 to R190): each instruction from what its one register write does, with or without a flag after it. -/

namespace Sys2Proof.Alu

open Sys2Proof Sys2Proof.Machine

/-! ### What a register write with its advance does -/

/-- A register write with its advance changes the registers and PC only. -/
theorem setV_setPc_keeps (s : State) (x : Nibble) (b : Byte) (pc : Word) :
    KeepsExcept [.v, .pc] s ((s.setV x b).setPc pc) :=
  ((Display.setV_keeps s x b).mono (by simp)).trans ((Flow.setPc_keeps _ pc).mono (by simp))

/-- A result, its flag and the advance change the registers and PC only. -/
theorem setVFlag_setPc_keeps (s : State) (x : Nibble) (rf : Byte × Byte) (pc : Word) :
    KeepsExcept [.v, .pc] s ((s.setVFlag x rf).setPc pc) :=
  ((Display.setV_keeps s x rf.1).mono (by simp)).trans (setV_setPc_keeps (s.setV x rf.1) 0xF rf.2 pc)

/-- An instruction that ends in one register write and the advance (40_cycle.md R105). -/
theorem finish_setV (i : Instr) (x : Nibble) (b : Byte) (s : State) :
    ∃ t, finish i .advance (s.setV x b) = .next t ∧ (∀ r, t.getV r = if r = x then b else s.getV r) ∧
      t.pc = s.pc + 2 ∧ KeepsExcept [.v, .pc] s t :=
  ⟨(s.setV x b).setPc (s.pc + 2), rfl, fun r => by simp, rfl, setV_setPc_keeps s x b _⟩

/-- An instruction whose one register write combines `V[x]` and `V[y]` bit by bit with `f`. -/
theorem finish_setV_bitwise (i : Instr) (x y : Nibble) (s : State) {b : Byte} {f : Bool → Bool → Bool}
    (hb : ∀ k, b.getLsbD k = f ((s.getV x).getLsbD k) ((s.getV y).getLsbD k)) :
    ∃ t, finish i .advance (s.setV x b) = .next t ∧
      (∀ k, (t.getV x).getLsbD k = f ((s.getV x).getLsbD k) ((s.getV y).getLsbD k)) ∧
      (∀ r, r ≠ x → t.getV r = s.getV r) ∧ t.pc = s.pc + 2 ∧ KeepsExcept [.v, .pc] s t := by
  obtain ⟨t, hnext, hv, hpc, hkeeps⟩ := finish_setV i x b s
  have hx : t.getV x = b := by rw [hv, if_pos rfl]
  exact ⟨t, hnext, fun k => hx ▸ hb k, fun r hr => by rw [hv, if_neg hr], hpc, hkeeps⟩

/-- An instruction that ends in a result, its flag and the advance: VF is written last, so it holds the flag also when it is
the destination (R193). -/
theorem finish_setVFlag (i : Instr) (x : Nibble) (s : State) {rf : Byte × Byte} {result flagValue : Nat}
    (h : rf.1.toNat = result ∧ rf.2.toNat = flagValue) :
    ∃ t, finish i .advance (s.setVFlag x rf) = .next t ∧
      (∀ r, r ≠ 0xF → (t.getV r).toNat = if r = x then result else (s.getV r).toNat) ∧
      (t.getV 0xF).toNat = flagValue ∧ t.pc = s.pc + 2 ∧ KeepsExcept [.v, .pc] s t := by
  obtain ⟨rfl, rfl⟩ := h
  refine ⟨(s.setVFlag x rf).setPc (s.pc + 2), rfl, fun r hr => ?_, ?_, rfl, setVFlag_setPc_keeps s x rf _⟩
  · rw [State.setPc_getV, State.getV_setVFlag, if_neg hr, apply_ite BitVec.toNat]
  · rw [State.setPc_getV, State.getV_setVFlag, if_pos rfl]

/-! ### The results and flags as numbers -/

/-- A flag value is the number 1 or 0. -/
theorem toNat_flag (p : Prop) [Decidable p] : (flag (decide p)).toNat = if p then 1 else 0 := by
  by_cases h : p <;> simp [flag, h]

/-- ADD: the sum modulo 256 and the carry (R186). -/
theorem addFlag_toNat (a b : Byte) :
    (addFlag a b).1.toNat = (a.toNat + b.toNat) % 256 ∧
      (addFlag a b).2.toNat = if a.toNat + b.toNat > 255 then 1 else 0 :=
  ⟨BitVec.toNat_ofNat _ 8, toNat_flag _⟩

/-- SUB: the difference modulo 256, and whether the minuend is strictly greater (R187, R189). -/
theorem subFlag_toNat (a b : Byte) :
    (subFlag a b).1.toNat = (a.toNat + 256 - b.toNat) % 256 ∧
      (subFlag a b).2.toNat = if a.toNat > b.toNat then 1 else 0 := by
  refine ⟨?_, toNat_flag _⟩
  have hdiff : (subFlag a b).1.toNat = (((a.toNat : Int) - b.toNat) % 256).toNat := BitVec.toNat_ofInt _
  have hb := b.isLt
  omega

/-- SHR: the half, and the old bit 0 (R188). -/
theorem shrFlag_toNat (a : Byte) : (shrFlag a).1.toNat = a.toNat / 2 ∧ (shrFlag a).2.toNat = a.toNat % 2 := by
  constructor
  · exact (BitVec.toNat_ushiftRight a 1).trans (Nat.shiftRight_eq_div_pow _ 1)
  · exact (BitVec.toNat_and a 1).trans (Nat.and_one_is_mod _)

/-- SHL: the double modulo 256, and the old bit 7 (R190). -/
theorem shlFlag_toNat (a : Byte) :
    (shlFlag a).1.toNat = a.toNat * 2 % 256 ∧ (shlFlag a).2.toNat = a.toNat / 128 := by
  constructor
  · simp [shlFlag, BitVec.toNat_shiftLeft, Nat.shiftLeft_eq]
  · have hbit : (shlFlag a).2.toNat = a.toNat / 128 % 2 := by
      simp [shlFlag, Nat.shiftRight_eq_div_pow, Nat.and_one_is_mod]
    have ha := a.isLt
    omega

/-! ### The obligations -/

/-- Settles O43: each of the three is one register write. -/
theorem loadsAndAddByte : Obligations.LoadsAndAddByte := by
  intro x y kk s
  refine ⟨or_append3 0x6 x kk, or_append3 0x7 x kk, or_append4 0x8 x y 0x0, finish_setV _ x kk s, ?_,
    finish_setV _ x (s.getV y) s⟩
  obtain ⟨t, hnext, hv, hpc, hkeeps⟩ := finish_setV (.addImm x kk) x (s.getV x + kk) s
  refine ⟨t, hnext, fun r => ?_, hpc, hkeeps⟩
  rw [hv, apply_ite BitVec.toNat, BitVec.toNat_add]

/-- Settles O44: each of the three is one register write of a bitwise combination. -/
theorem logicIsBitwise : Obligations.LogicIsBitwise := by
  intro x y s
  exact ⟨or_append4 0x8 x y 0x1, or_append4 0x8 x y 0x2, or_append4 0x8 x y 0x3,
    finish_setV_bitwise _ x y s (fun _ => BitVec.getLsbD_or),
    finish_setV_bitwise _ x y s (fun _ => BitVec.getLsbD_and),
    finish_setV_bitwise _ x y s (fun _ => BitVec.getLsbD_xor)⟩

/-- Settles O45: ADD is one write of a result and its flag. -/
theorem addSetsCarry : Obligations.AddSetsCarry := by
  intro x y s
  exact ⟨or_append4 0x8 x y 0x4, finish_setVFlag _ x s (addFlag_toNat (s.getV x) (s.getV y))⟩

/-- Settles O46: SUBN is SUB with the operands of the difference exchanged. -/
theorem subSetsStrictFlag : Obligations.SubSetsStrictFlag := by
  intro x y s
  exact ⟨or_append4 0x8 x y 0x5, or_append4 0x8 x y 0x7,
    finish_setVFlag _ x s (subFlag_toNat (s.getV x) (s.getV y)),
    finish_setVFlag _ x s (subFlag_toNat (s.getV y) (s.getV x))⟩

/-- Settles O47: the result and the flag of each shift come from `V[x]` alone. -/
theorem shiftsSetBitShiftedOut : Obligations.ShiftsSetBitShiftedOut := by
  intro x y s
  exact ⟨or_append4 0x8 x y 0x6, or_append4 0x8 x y 0xE,
    finish_setVFlag _ x s (shrFlag_toNat (s.getV x)),
    finish_setVFlag _ x s (shlFlag_toNat (s.getV x))⟩

end Sys2Proof.Alu
end

section
/-! Proofs of the family IndexMemory (45_index_memory.md R220): LD I from what one write of I with its advance does. -/

namespace Sys2Proof.IndexMemory

open Sys2Proof Sys2Proof.Machine

/-- A write of I leaves every component but I as it was. -/
theorem setI_keeps (s : State) (w : Word) : KeepsExcept [.i] s (s.setI w) := by
  intro c hc
  cases c with
  | i => simp at hc
  | mem | v => exact fun _ => rfl
  | _ => rfl

/-- A write of I with its advance changes I and PC only. -/
theorem setI_setPc_keeps (s : State) (w pc : Word) : KeepsExcept [.i, .pc] s ((s.setI w).setPc pc) :=
  ((setI_keeps s w).mono (by simp)).trans ((Flow.setPc_keeps _ pc).mono (by simp))

/-- LD I writes the widened address to I and advances PC (R220). -/
theorem exec_ldI (nnn : Addr) (s : State) :
    exec (.ldI nnn) s = .next ((s.setI (nnn.setWidth 16)).setPc (s.pc + 2)) := rfl

/-- Settles O49: LD I is one write of I and the advance. -/
theorem ldISetsAddress : Obligations.LdISetsAddress := by
  intro nnn s
  exact ⟨or_append2 0xA nnn, _, exec_ldI nnn s, rfl, rfl, setI_setPc_keeps s _ _⟩

end Sys2Proof.IndexMemory
end

section
/-! Proofs of the family TimerKey (46_timer_key.md R250, R252, R253): the timer moves from what one write of a timer with
its advance does, and the tone from ST. -/

namespace Sys2Proof.TimerKey

open Sys2Proof Sys2Proof.Machine

/-- A write of DT leaves every component but DT as it was. -/
theorem setDt_keeps (s : State) (b : Byte) : KeepsExcept [.dt] s (s.setDt b) := by
  intro c hc
  cases c with
  | dt => simp at hc
  | mem | v => exact fun _ => rfl
  | _ => rfl

/-- A write of ST leaves every component but ST as it was. -/
theorem setSt_keeps (s : State) (b : Byte) : KeepsExcept [.st] s (s.setSt b) := by
  intro c hc
  cases c with
  | st => simp at hc
  | mem | v => exact fun _ => rfl
  | _ => rfl

/-- A write of DT with its advance changes DT and PC only. -/
theorem setDt_setPc_keeps (s : State) (b : Byte) (pc : Word) : KeepsExcept [.dt, .pc] s ((s.setDt b).setPc pc) :=
  ((setDt_keeps s b).mono (by simp)).trans ((Flow.setPc_keeps _ pc).mono (by simp))

/-- A write of ST with its advance changes ST and PC only. -/
theorem setSt_setPc_keeps (s : State) (b : Byte) (pc : Word) : KeepsExcept [.st, .pc] s ((s.setSt b).setPc pc) :=
  ((setSt_keeps s b).mono (by simp)).trans ((Flow.setPc_keeps _ pc).mono (by simp))

/-- Outside Halted the tone is on exactly when ST is above 0 (R41). -/
theorem toneOut_of_not_halted {s : State} (h : s.mode.isHalted = false) : s.toneOut = decide (s.st.toNat > 0) := by
  simp [State.toneOut, h]

/-- LD DT, Vx writes `V[x]` to DT and advances PC (R252). -/
theorem exec_ldDtVx (x : Nibble) (s : State) :
    exec (.ldDtVx x) s = .next ((s.setDt (s.getV x)).setPc (s.pc + 2)) := rfl

/-- LD ST, Vx writes `V[x]` to ST and advances PC (R253). -/
theorem exec_ldStVx (x : Nibble) (s : State) :
    exec (.ldStVx x) s = .next ((s.setSt (s.getV x)).setPc (s.pc + 2)) := rfl

/-- Settles O57: each move is one write and the advance; neither changes the mode, so the tone follows the new ST. -/
theorem timerMoves : Obligations.TimerMoves := by
  intro x s
  exact ⟨or_appendX 0xF x 0x07, or_appendX 0xF x 0x15, or_appendX 0xF x 0x18,
    Alu.finish_setV _ x s.dt s,
    ⟨_, exec_ldDtVx x s, rfl, rfl, setDt_setPc_keeps s _ _⟩,
    ⟨_, exec_ldStVx x s, rfl, rfl, setSt_setPc_keeps s _ _, fun hmode => toneOut_of_not_halted hmode⟩⟩

end Sys2Proof.TimerKey
end

section
/-! Proofs of the family Encoding, continued (30_encoding.md R70 to R79): decoder, encoder and the match and mask
table agree. -/

namespace Sys2Proof.Encoding

open Sys2Proof Sys2Proof.Machine

/-! ### Decode after encode -/

/-- The word of a well-formed instruction decodes to that instruction: each field comes back as it went in. -/
theorem decodeWord_encode {m : ZeroGroupMask} {i : Instr} (h : i.wellFormed m = true) :
    decodeWord m (encode i) = some i := by
  cases i with
  | cls ign => exact Display.decodeWord_encode_cls h
  | ret ign => exact Flow.decodeWord_encode_ret h
  | jp nnn | call nnn | ldI nnn | jpV0 nnn => simp [encode, decodeWord, fields_append2]
  | seImm x kk | sneImm x kk | ldImm x kk | addImm x kk | rnd x kk => simp [encode, decodeWord, fields_append3]
  | seReg x y | sneReg x y | drw x y n => simp [encode, decodeWord, fields_append4]
  | ldReg x y | orReg x y | andReg x y | xorReg x y | addReg x y | subReg x y | shr x y | subnReg x y | shl x y =>
    simp [encode, decodeWord, decodeEight, fields_append4]
  | skp x | sknp x => simp [encode, decodeWord, decodeE, fields_append3]
  | ldVxDt x | ldVxK x | ldDtVx x | ldStVx x | addIVx x | ldFVx x | ldBVx x | ldMemVx x | ldVxMem x =>
    simp [encode, decodeWord, decodeF, fields_append3]

/-- The word of two bytes in values: the first byte is the more significant one (20_memory.md R51). -/
theorem wordOfBytes_toNat (hi lo : Byte) : (wordOfBytes hi lo).toNat = 256 * hi.toNat + lo.toNat := by
  have hlo : lo.toNat < 2 ^ 8 := lo.isLt
  rw [wordOfBytes, BitVec.toNat_append, Nat.shiftLeft_eq, Nat.mul_comm, Nat.two_pow_add_eq_or_of_lt hlo]

/-- The bytes of a word in values: its quotient and its remainder by 256. -/
theorem hiByte_loByte_toNat (w : Word) : (hiByte w).toNat = w.toNat / 256 ∧ (loByte w).toNat = w.toNat % 256 := by
  have hword : 256 * (hiByte w).toNat + (loByte w).toNat = w.toNat := by
    rw [← wordOfBytes_toNat, wordOfBytes_hi_lo]
  have hlo := (loByte w).isLt
  omega

/-- Settles O3: the two bytes of a word put together are the word, and it decodes to its instruction. -/
theorem decodeOfEncodeIsIdentity : Obligations.DecodeOfEncodeIsIdentity := by
  refine ⟨fun m i rest h => ?_, wordOfBytes_toNat, fun i => ?_, fun s => wordOfBytes_toNat _ _⟩
  · have hbytes : encodeBytes i ++ rest = hiByte (encode i) :: loByte (encode i) :: rest := rfl
    rw [hbytes, decode_cons, wordOfBytes_hi_lo, decodeWord_encode h]
  · obtain ⟨hhi, hlo⟩ := hiByte_loByte_toNat (encode i)
    simp [encodeBytes, hhi, hlo]

/-! ### Encode after decode -/

/-- A word from its group and nnn. -/
theorem append2_of_fields {op : Word} {g : Nibble} (hg : fieldG op = g) : g ++ fieldNNN op = op :=
  hg ▸ (word_eq_append2 op).symm

/-- A word from its group, x and kk. -/
theorem append3_of_fields {op : Word} {g : Nibble} {f : Byte} (hg : fieldG op = g) (hf : fieldKK op = f) :
    g ++ fieldX op ++ f = op := hg ▸ hf ▸ (word_eq_append3 op).symm

/-- A word from its four nibbles. -/
theorem append4_of_fields {op : Word} {g n : Nibble} (hg : fieldG op = g) (hn : fieldN op = n) :
    g ++ fieldX op ++ fieldY op ++ n = op := hg ▸ hn ▸ (word_eq_append4 op).symm

/-- A word that a pattern under 0xF000 matches has the pattern's group. -/
theorem fieldG_of_and_mask {op : Word} {g : Nibble} (h : op &&& 0xF000#16 = g ++ 0#12) : fieldG op = g := by
  rw [word_eq_append2 op, Laws.and_mask_addr] at h
  simpa [fields_append2] using congrArg fieldG h

/-- A word that a pattern under 0xF00F matches has the pattern's group and function nibble. -/
theorem fieldG_fieldN_of_and_mask {op : Word} {g n : Nibble} (h : op &&& 0xF00F#16 = g ++ 0#4 ++ 0#4 ++ n) :
    fieldG op = g ∧ fieldN op = n := by
  rw [word_eq_append4 op, Laws.and_mask_function] at h
  exact ⟨by simpa [fields_append4] using congrArg fieldG h, by simpa [fields_append4] using congrArg fieldN h⟩

/-- A word that a pattern under 0xF0FF matches has the pattern's group and function byte. -/
theorem fieldG_fieldKK_of_and_mask {op : Word} {g : Nibble} {f : Byte} (h : op &&& 0xF0FF#16 = g ++ 0#4 ++ f) :
    fieldG op = g ∧ fieldKK op = f := by
  rw [word_eq_append3 op, Laws.and_mask_function_byte] at h
  exact ⟨by simpa [fields_append3] using congrArg fieldG h, by simpa [fields_append3] using congrArg fieldKK h⟩

/-- A word that a pattern of the 0 group matches under ZERO_GROUP_MASK is that pattern with allowed ignored bits (R77). -/
theorem zero_word_of_and_mask {m : ZeroGroupMask} {op : Word} {f : Byte} (h : op &&& m.toWord = 0#4 ++ 0#4 ++ f) :
    0#4 ++ fieldX op ++ f = op ∧ m.allows (fieldX op) = true := by
  cases m with
  | lowByte =>
    obtain ⟨hg, hf⟩ := fieldG_fieldKK_of_and_mask h
    exact ⟨append3_of_fields hg hf, rfl⟩
  | fullWord =>
    have hop : op = 0#4 ++ 0#4 ++ f := BitVec.and_allOnes.symm.trans h
    obtain ⟨-, hfieldX, -⟩ := fields_append3 0#4 0#4 f
    have hx : fieldX op = 0#4 := hop ▸ hfieldX
    exact ⟨hx ▸ hop.symm, by simp [hx, ZeroGroupMask.allows]⟩

/-- Group 0: the word matched one of the two patterns (R77). -/
theorem encode_of_decodeZero {m : ZeroGroupMask} {op : Word} {i : Instr} (h : decodeZero m op = some i) :
    encode i = op ∧ i.wellFormed m = true := by
  unfold decodeZero at h
  split_ifs at h with hcls hret
  · cases h
    exact zero_word_of_and_mask hcls
  · cases h
    exact zero_word_of_and_mask hret

/-- Group 8: each branch fixes the function nibble. -/
theorem encode_of_decodeEight {m : ZeroGroupMask} {op : Word} {i : Instr} (hg : fieldG op = 0x8)
    (h : decodeEight (fieldX op) (fieldY op) (fieldN op) = some i) : encode i = op ∧ i.wellFormed m = true := by
  unfold decodeEight at h
  split_ifs at h
  all_goals
    cases h
    exact ⟨append4_of_fields hg ‹_›, rfl⟩

/-- Group E: each branch fixes the function byte. -/
theorem encode_of_decodeE {m : ZeroGroupMask} {op : Word} {i : Instr} (hg : fieldG op = 0xE)
    (h : decodeE (fieldX op) (fieldKK op) = some i) : encode i = op ∧ i.wellFormed m = true := by
  unfold decodeE at h
  split_ifs at h
  all_goals
    cases h
    exact ⟨append3_of_fields hg ‹_›, rfl⟩

/-- Group F: each branch fixes the function byte. -/
theorem encode_of_decodeF {m : ZeroGroupMask} {op : Word} {i : Instr} (hg : fieldG op = 0xF)
    (h : decodeF (fieldX op) (fieldKK op) = some i) : encode i = op ∧ i.wellFormed m = true := by
  unfold decodeF at h
  split_ifs at h
  all_goals
    cases h
    exact ⟨append3_of_fields hg ‹_›, rfl⟩

/-- The word of the instruction that a word decodes to is that word, by the sixteen groups of R75. -/
theorem encode_of_decodeWord {m : ZeroGroupMask} {op : Word} {i : Instr} (h : decodeWord m op = some i) :
    encode i = op ∧ i.wellFormed m = true := by
  unfold decodeWord at h
  obtain ⟨-, h⟩ | ⟨g0, h⟩ := ite_eq_iff.1 h
  · exact encode_of_decodeZero h
  obtain ⟨hg, ⟨⟩⟩ | ⟨g1, h⟩ := ite_eq_iff.1 h
  · exact ⟨append2_of_fields hg, rfl⟩
  obtain ⟨hg, ⟨⟩⟩ | ⟨g2, h⟩ := ite_eq_iff.1 h
  · exact ⟨append2_of_fields hg, rfl⟩
  obtain ⟨hg, ⟨⟩⟩ | ⟨g3, h⟩ := ite_eq_iff.1 h
  · exact ⟨append3_of_fields hg rfl, rfl⟩
  obtain ⟨hg, ⟨⟩⟩ | ⟨g4, h⟩ := ite_eq_iff.1 h
  · exact ⟨append3_of_fields hg rfl, rfl⟩
  obtain ⟨hg, h⟩ | ⟨g5, h⟩ := ite_eq_iff.1 h
  · obtain ⟨hn, ⟨⟩⟩ | ⟨-, ⟨⟩⟩ := ite_eq_iff.1 h
    exact ⟨append4_of_fields hg hn, rfl⟩
  obtain ⟨hg, ⟨⟩⟩ | ⟨g6, h⟩ := ite_eq_iff.1 h
  · exact ⟨append3_of_fields hg rfl, rfl⟩
  obtain ⟨hg, ⟨⟩⟩ | ⟨g7, h⟩ := ite_eq_iff.1 h
  · exact ⟨append3_of_fields hg rfl, rfl⟩
  obtain ⟨hg, h⟩ | ⟨g8, h⟩ := ite_eq_iff.1 h
  · exact encode_of_decodeEight hg h
  obtain ⟨hg, h⟩ | ⟨g9, h⟩ := ite_eq_iff.1 h
  · obtain ⟨hn, ⟨⟩⟩ | ⟨-, ⟨⟩⟩ := ite_eq_iff.1 h
    exact ⟨append4_of_fields hg hn, rfl⟩
  obtain ⟨hg, ⟨⟩⟩ | ⟨gA, h⟩ := ite_eq_iff.1 h
  · exact ⟨append2_of_fields hg, rfl⟩
  obtain ⟨hg, ⟨⟩⟩ | ⟨gB, h⟩ := ite_eq_iff.1 h
  · exact ⟨append2_of_fields hg, rfl⟩
  obtain ⟨hg, ⟨⟩⟩ | ⟨gC, h⟩ := ite_eq_iff.1 h
  · exact ⟨append3_of_fields hg rfl, rfl⟩
  obtain ⟨hg, ⟨⟩⟩ | ⟨gD, h⟩ := ite_eq_iff.1 h
  · exact ⟨append4_of_fields hg rfl, rfl⟩
  obtain ⟨hg, h⟩ | ⟨gE, h⟩ := ite_eq_iff.1 h
  · exact encode_of_decodeE hg h
  exact encode_of_decodeF (by bv_omega) h

/-- Settles O4: in each group of the decoder the word is put together again from its fields. -/
theorem encodeOfDecodeIsIdentity : Obligations.EncodeOfDecodeIsIdentity := fun _ _ _ h => encode_of_decodeWord h

/-! ### The match and mask table -/

/-- Every instruction's row stands in the table. -/
theorem row_mem_opcodeRows (m : ZeroGroupMask) (i : Instr) : i.row m ∈ opcodeRows m := by
  cases i <;> simp [Instr.row, opcodeRows]

/-- The word of a well-formed instruction selects the row of that instruction. -/
theorem row_selects_encode : ∀ i : Instr, Laws.TableRow.Statement i
  | .cls ign => Laws.TableRow.cls ign
  | .ret ign => Laws.TableRow.ret ign
  | .jp nnn => Laws.TableRow.jp nnn
  | .call nnn => Laws.TableRow.call nnn
  | .seImm x kk => Laws.TableRow.seImm x kk
  | .sneImm x kk => Laws.TableRow.sneImm x kk
  | .seReg x y => Laws.TableRow.seReg x y
  | .ldImm x kk => Laws.TableRow.ldImm x kk
  | .addImm x kk => Laws.TableRow.addImm x kk
  | .ldReg x y => Laws.TableRow.ldReg x y
  | .orReg x y => Laws.TableRow.orReg x y
  | .andReg x y => Laws.TableRow.andReg x y
  | .xorReg x y => Laws.TableRow.xorReg x y
  | .addReg x y => Laws.TableRow.addReg x y
  | .subReg x y => Laws.TableRow.subReg x y
  | .shr x y => Laws.TableRow.shr x y
  | .subnReg x y => Laws.TableRow.subnReg x y
  | .shl x y => Laws.TableRow.shl x y
  | .sneReg x y => Laws.TableRow.sneReg x y
  | .ldI nnn => Laws.TableRow.ldI nnn
  | .jpV0 nnn => Laws.TableRow.jpV0 nnn
  | .rnd x kk => Laws.TableRow.rnd x kk
  | .drw x y n => Laws.TableRow.drw x y n
  | .skp x => Laws.TableRow.skp x
  | .sknp x => Laws.TableRow.sknp x
  | .ldVxDt x => Laws.TableRow.ldVxDt x
  | .ldVxK x => Laws.TableRow.ldVxK x
  | .ldDtVx x => Laws.TableRow.ldDtVx x
  | .ldStVx x => Laws.TableRow.ldStVx x
  | .addIVx x => Laws.TableRow.addIVx x
  | .ldFVx x => Laws.TableRow.ldFVx x
  | .ldBVx x => Laws.TableRow.ldBVx x
  | .ldMemVx x => Laws.TableRow.ldMemVx x
  | .ldVxMem x => Laws.TableRow.ldVxMem x

/-- Some well-formed instruction of the row has the word. -/
def RowHolds (m : ZeroGroupMask) (r : OpcodeRow) (op : Word) : Prop :=
  ∃ i : Instr, encode i = op ∧ i.wellFormed m = true ∧ i.row m = r

/-- A word that selects a row of the table is the word of an instruction of that row. -/
theorem rowHolds_of_selects {m : ZeroGroupMask} {op : Word} :
    ∀ r ∈ opcodeRows m, r.selects op = true → RowHolds m r op := by
  have zero {f : Byte} (h : op &&& m.toWord = 0#4 ++ 0#4 ++ f) := zero_word_of_and_mask h
  have addr {g : Nibble} (h : op &&& 0xF000#16 = g ++ 0#12) := append2_of_fields (fieldG_of_and_mask h)
  have byte {g : Nibble} (h : op &&& 0xF000#16 = g ++ 0#12) := append3_of_fields (fieldG_of_and_mask h) rfl
  have nibbles {g : Nibble} (h : op &&& 0xF000#16 = g ++ 0#12) := append4_of_fields (fieldG_of_and_mask h) rfl
  have function {g n : Nibble} (h : op &&& 0xF00F#16 = g ++ 0#4 ++ 0#4 ++ n) :=
    append4_of_fields (fieldG_fieldN_of_and_mask h).1 (fieldG_fieldN_of_and_mask h).2
  have functionByte {g : Nibble} {f : Byte} (h : op &&& 0xF0FF#16 = g ++ 0#4 ++ f) :=
    append3_of_fields (fieldG_fieldKK_of_and_mask h).1 (fieldG_fieldKK_of_and_mask h).2
  simp only [opcodeRows, List.cons_append, List.nil_append, List.forall_mem_cons, OpcodeRow.selects, beq_iff_eq]
  refine ⟨fun h => ⟨.cls _, (zero (f := 0xE0) h).1, (zero (f := 0xE0) h).2, rfl⟩,
    fun h => ⟨.ret _, (zero (f := 0xEE) h).1, (zero (f := 0xEE) h).2, rfl⟩,
    fun h => ⟨.jp _, addr h, rfl, rfl⟩,
    fun h => ⟨.call _, addr h, rfl, rfl⟩,
    fun h => ⟨.seImm _ _, byte h, rfl, rfl⟩,
    fun h => ⟨.sneImm _ _, byte h, rfl, rfl⟩,
    fun h => ⟨.seReg _ _, function h, rfl, rfl⟩,
    fun h => ⟨.ldImm _ _, byte h, rfl, rfl⟩,
    fun h => ⟨.addImm _ _, byte h, rfl, rfl⟩,
    fun h => ⟨.ldReg _ _, function h, rfl, rfl⟩,
    fun h => ⟨.orReg _ _, function h, rfl, rfl⟩,
    fun h => ⟨.andReg _ _, function h, rfl, rfl⟩,
    fun h => ⟨.xorReg _ _, function h, rfl, rfl⟩,
    fun h => ⟨.addReg _ _, function h, rfl, rfl⟩,
    fun h => ⟨.subReg _ _, function h, rfl, rfl⟩,
    fun h => ⟨.shr _ _, function h, rfl, rfl⟩,
    fun h => ⟨.subnReg _ _, function h, rfl, rfl⟩,
    fun h => ⟨.shl _ _, function h, rfl, rfl⟩,
    fun h => ⟨.sneReg _ _, function h, rfl, rfl⟩,
    fun h => ⟨.ldI _, addr h, rfl, rfl⟩,
    fun h => ⟨.jpV0 _, addr h, rfl, rfl⟩,
    fun h => ⟨.rnd _ _, byte h, rfl, rfl⟩,
    fun h => ⟨.drw _ _ _, nibbles h, rfl, rfl⟩,
    fun h => ⟨.skp _, functionByte h, rfl, rfl⟩,
    fun h => ⟨.sknp _, functionByte h, rfl, rfl⟩,
    fun h => ⟨.ldVxDt _, functionByte h, rfl, rfl⟩,
    fun h => ⟨.ldVxK _, functionByte h, rfl, rfl⟩,
    fun h => ⟨.ldDtVx _, functionByte h, rfl, rfl⟩,
    fun h => ⟨.ldStVx _, functionByte h, rfl, rfl⟩,
    fun h => ⟨.addIVx _, functionByte h, rfl, rfl⟩,
    fun h => ⟨.ldFVx _, functionByte h, rfl, rfl⟩,
    fun h => ⟨.ldBVx _, functionByte h, rfl, rfl⟩,
    fun h => ⟨.ldMemVx _, functionByte h, rfl, rfl⟩,
    fun h => ⟨.ldVxMem _, functionByte h, rfl, rfl⟩,
    by simp⟩

/-- A word that selects a row of the table decodes to an instruction of that row. -/
theorem decodeWord_of_selects {m : ZeroGroupMask} {op : Word} {r : OpcodeRow} (hr : r ∈ opcodeRows m)
    (hs : r.selects op = true) : ∃ i, decodeWord m op = some i ∧ i.row m = r := by
  obtain ⟨i, rfl, hwf, hrow⟩ := rowHolds_of_selects r hr hs
  exact ⟨i, decodeWord_encode hwf, hrow⟩

/-- Settles O5: a word selects one row only because it decodes to one instruction only. -/
theorem decodeFollowsMatchMaskTable : Obligations.DecodeFollowsMatchMaskTable := by
  refine fun m op => ⟨fun i h => ?_, fun r hr hs => decodeWord_of_selects hr hs, fun r hr r' hr' hs hs' => ?_⟩
  · obtain ⟨rfl, hwf⟩ := encode_of_decodeWord h
    exact ⟨row_mem_opcodeRows m i, row_selects_encode i m hwf⟩
  · obtain ⟨i, hi, rfl⟩ := decodeWord_of_selects hr hs
    obtain ⟨i', hi', rfl⟩ := decodeWord_of_selects hr' hs'
    obtain rfl : i = i' := Option.some.inj (hi.symm.trans hi')
    rfl

/-! ### Fixed words and the mask of the 0 group -/

/-- Settles O2, a check on ten words. -/
theorem sampleWordsDecode : Obligations.SampleWordsDecode := by
  unfold Obligations.SampleWordsDecode
  decide

/-- Settles O6: under 0xF0FF every value of bits 11:8 is allowed; the words under 0xFFFF are sixteen for each instruction. -/
theorem zeroGroupMaskSelectsClsRet : Obligations.ZeroGroupMaskSelectsClsRet := by
  intro ign
  have hcls : encode (.cls ign) = wordX 0x00E0 ign := or_appendX 0x0 ign 0xE0
  have hret : encode (.ret ign) = wordX 0x00EE ign := or_appendX 0x0 ign 0xEE
  have full : ∀ ign : Nibble, decodeWord .fullWord (wordX 0x00E0 ign) = (if ign = 0 then some (.cls 0) else none) ∧
      decodeWord .fullWord (wordX 0x00EE ign) = (if ign = 0 then some (.ret 0) else none) := by decide
  exact ⟨hcls ▸ decodeWord_encode rfl, hret ▸ decodeWord_encode rfl, full ign⟩

end Sys2Proof.Encoding
end

section
/-! Proofs of the family Display, continued (41_display.md R122, R125): a failing DRW, and two equal draws. -/

namespace Sys2Proof.Display

open Sys2Proof Sys2Proof.Machine

/-- DRW with a sprite byte outside memory is fault entry at the lowest such address (R122). -/
theorem exec_drw_of_not_inMemory {x y n : Nibble} {s : State} (h : ¬ s.InMemory n.toNat) :
    exec (.drw x y n) s =
      .next (s.enterHalt (.invalidAddress .data (max s.i.toNat 0x1000)) (some (encode (.drw x y n)))) := by
  have hexec : exec (.drw x y n) s =
      finishChecked (.drw x y n) (firstFailing readCheck s.i.toNat n.toNat) s (s.drawSprite x y n) := rfl
  rw [hexec, readBlock_fails h]
  rfl

/-- Settles O33: the check of the reads reports the lowest address outside memory. -/
theorem drwOutsideMemoryHalts : Obligations.DrwOutsideMemoryHalts :=
  fun _ _ _ s h => ⟨_, exec_drw_of_not_inMemory h, s.enterHalt_spec _ _⟩

/-- The place of a sprite depends on I, on memory and on the two coordinate registers only. -/
theorem spriteCovers_congr {s t : State} {x y : Nibble} (n : Nibble) (hi : t.i = s.i)
    (hmem : ∀ a, t.readByte a = s.readByte a) (hx : t.getV x = s.getV x) (hy : t.getV y = s.getV y) (cx : Fin 64)
    (cy : Fin 32) : SpriteCovers t x y n cx cy ↔ SpriteCovers s x y n cx cy := by
  simp only [SpriteCovers, hi, hmem, hx, hy]

/-- A draw with coordinate registers other than VF leaves the sprite where it was. -/
theorem spriteCovers_drawSprite {s : State} {x y : Nibble} (n : Nibble) (hx : x ≠ 0xF) (hy : y ≠ 0xF) (pc : Word)
    (cx : Fin 64) (cy : Fin 32) :
    SpriteCovers ((s.drawSprite x y n).setPc pc) x y n cx cy ↔ SpriteCovers s x y n cx cy := by
  have hv {r : Nibble} (hr : r ≠ 0xF) : ((s.drawSprite x y n).setPc pc).getV r = s.getV r := by
    rw [State.setPc_getV, getV_drawSprite, if_neg hr]
  exact spriteCovers_congr n (by rfl) (fun _ => by rfl) (hv hx) (hv hy) cx cy

/-- Settles O34: both draws flip the same pixels, and on a blank display the second clears what the first set. -/
theorem drwTwiceRestoresDisplay : Obligations.DrwTwiceRestoresDisplay := by
  intro x y n s hx hy hmem
  have hfirst := s.drawSprite_plotted x y n
  have hcov := spriteCovers_drawSprite (s := s) n hx hy (s.pc + 2)
  let t := (s.drawSprite x y n).setPc (s.pc + 2)
  have hsecond := t.drawSprite_plotted x y n
  refine ⟨t, _, exec_drw_of_inMemory hmem, exec_drw_of_inMemory (s := t) hmem, fun cx cy => ?_, fun hblank => ?_⟩
  · by_cases h : SpriteCovers s x y n cx cy
    · calc _ = !t.gfx.pixel cx cy := hsecond.flipped cx cy ((hcov cx cy).2 h)
        _ = !!s.gfx.pixel cx cy := congrArg _ (hfirst.flipped cx cy h)
        _ = s.gfx.pixel cx cy := Bool.not_not _
    · calc _ = t.gfx.pixel cx cy := hsecond.kept cx cy (fun ht => h ((hcov cx cy).1 ht))
        _ = s.gfx.pixel cx cy := hfirst.kept cx cy h
  · refine ⟨drawSprite_vf_eq_zero (fun cx cy _ => hblank cx cy), fun ⟨cx, cy, h⟩ => ?_⟩
    have hset : t.gfx.pixel cx cy = true := (hfirst.flipped cx cy h).trans (by rw [hblank]; rfl)
    exact drawSprite_vf_eq_one (s := t) ⟨cx, cy, (hcov cx cy).2 h, hset⟩

end Sys2Proof.Display
end

section
/-! Proofs of the family Flow, continued (42_flow.md R142, R143): CALL from what a push does, JP V0, and RET after CALL. -/

namespace Sys2Proof.Flow

open Sys2Proof Sys2Proof.Machine

/-! ### CALL -/

/-- A push with k used slots, k below 16, writes entry k. -/
theorem push_of_sp_eq {s : State} {k : Fin 16} (w : Word) (h : s.sp.val = k.val) :
    s.push w = some { s with stack := s.stack.set k.val w, sp := k.succ } := by
  refine State.push_eq_some.2 ⟨by omega, ?_⟩
  simp only [h]
  rfl

/-- An entry of the stack after a push onto entry k. -/
theorem stack_set_getElem (v : Vector Word 16) (w : Word) (k j : Fin 16) :
    (v.set k.val w)[j] = if j = k then w else v[j] := by
  simp [Vector.getElem_set, Fin.ext_iff, eq_comm]

/-- A push changes SP and the stack only. -/
theorem push_keeps {s t : State} {w : Word} (h : s.push w = some t) : KeepsExcept [.sp, .stack] s t := by
  obtain ⟨-, rfl⟩ := State.push_eq_some.1 h
  intro c hc
  cases c with
  | sp | stack => simp at hc
  | mem | v => exact fun _ => rfl
  | _ => rfl

/-- CALL with no free slot is fault entry (R142). -/
theorem exec_call_of_push_eq_none {s : State} {nnn : Addr} (h : s.push (s.pc + 2) = none) :
    exec (.call nnn) s = .next (s.enterHalt .stackOverflow (some (encode (.call nnn)))) := by
  have hexec : exec (.call nnn) s = execCall nnn s := rfl
  rw [hexec, execCall, h]
  rfl

/-- CALL pushes the address of the next word and jumps without a check of the target (R142). -/
theorem exec_call_of_push_eq_some {s t : State} {nnn : Addr} (h : s.push (s.pc + 2) = some t) :
    exec (.call nnn) s = .next (t.setPc (nnn.setWidth 16)) := by
  have hexec : exec (.call nnn) s = execCall nnn s := rfl
  rw [hexec, execCall, h]
  rfl

/-- Settles O37: with SP = 16 the push fails and CALL is fault entry; otherwise CALL is the push and then the write of PC. -/
theorem callPushesOrOverflows : Obligations.CallPushesOrOverflows := by
  intro nnn s
  refine ⟨or_append2 0x2 nnn, fun hsp => ?_, fun k hk => ?_⟩
  · exact ⟨_, exec_call_of_push_eq_none (State.push_eq_none.2 hsp), s.enterHalt_spec _ _⟩
  · have hpush := push_of_sp_eq (s.pc + 2) hk
    have hstack := stack_set_getElem s.stack (s.pc + 2) k
    exact ⟨_, exec_call_of_push_eq_some hpush, rfl, (hstack k).trans (if_pos rfl),
      fun j hj => (hstack j).trans (if_neg hj), rfl,
      ((push_keeps hpush).mono (by simp)).trans ((setPc_keeps _ _).mono (by simp))⟩

/-- Settles O39: the RET pops the entry that the CALL pushed. -/
theorem callThenRetComesBack : Obligations.CallThenRetComesBack := by
  intro nnn ign s hsp
  let k : Fin 16 := ⟨s.sp.val, hsp⟩
  have hstack := stack_set_getElem s.stack (s.pc + 2) k
  have hpush := push_of_sp_eq (k := k) (s.pc + 2) rfl
  have hpop := pop_of_sp_eq_succ (k := k)
    (s := ({ s with stack := s.stack.set k.val (s.pc + 2), sp := k.succ } : State).setPc (nnn.setWidth 16)) rfl
  refine ⟨_, _, exec_call_of_push_eq_some hpush, exec_ret_of_pop_eq_some hpop, (hstack k).trans (if_pos rfl), rfl,
    fun j => ?_, fun c hc => ?_⟩
  · simpa [k, Fin.ext_iff] using hstack j
  · cases c with
    | stack | pc => simp at hc
    | mem | v => exact fun _ => rfl
    | _ => rfl

/-! ### JP V0 -/

/-- JP V0 ends with the outcome of the check of the unwrapped sum (R143). -/
theorem exec_jpV0 (nnn : Addr) (s : State) :
    exec (.jpV0 nnn) s = .next (s.applyOutcome (encode (.jpV0 nnn)) (jumpTo ((s.getV 0).toNat + nnn.toNat))) := rfl

/-- Settles O38: the check of the sum decides between the write of PC and fault entry. -/
theorem jpV0JumpsOrHalts : Obligations.JpV0JumpsOrHalts := by
  intro nnn s
  refine ⟨or_append2 0xB nnn, fun hlt => ?_, fun hge => ?_⟩
  · rw [exec_jpV0, jumpTo_of_lt hlt, State.applyOutcome_jump]
    refine ⟨_, rfl, ?_, setPc_keeps s _⟩
    rw [State.setPc_pc, BitVec.toNat_ofNat]
    omega
  · rw [exec_jpV0, jumpTo_of_ge hge, State.applyOutcome_fault]
    exact ⟨_, rfl, s.enterHalt_spec _ _⟩

end Sys2Proof.Flow
end

section
/-! The rules of SKP and SKNP (43_skip.md R168 to R170), from the check of the key index. -/

namespace Sys2Proof.Skip

open Sys2Proof Sys2Proof.Machine

/-- SKP with the key index in range is one write of PC (R168). -/
theorem exec_skp_of_le {x : Nibble} {s : State} (h : (s.getV x).toNat ≤ 0xF) :
    exec (.skp x) s = .next (s.setPc (if s.keys.getLsbD (s.getV x).toNat then s.pc + 4 else s.pc + 2)) := by
  simp [exec, execSkp, keyCheck_eq_none.2 h, finish, State.keyDown]

/-- SKNP with the key index in range is the same write with the two advances exchanged (R169). -/
theorem exec_sknp_of_le {x : Nibble} {s : State} (h : (s.getV x).toNat ≤ 0xF) :
    exec (.sknp x) s = .next (s.setPc (if s.keys.getLsbD (s.getV x).toNat then s.pc + 2 else s.pc + 4)) := by
  cases hkey : s.keys.getLsbD (s.getV x).toNat <;>
    simp [exec, execSknp, keyCheck_eq_none.2 h, finish, State.keyDown, hkey]

/-- SKP with the key index out of range is fault entry (R170). -/
theorem exec_skp_of_gt {x : Nibble} {s : State} (h : (s.getV x).toNat > 0xF) :
    exec (.skp x) s = .next (s.enterHalt (.keyIndexOutOfRange (s.getV x)) (some (encode (.skp x)))) := by
  simp [exec, execSkp, keyCheck_eq_some.2 ⟨h, rfl⟩, finish]

/-- SKNP with the key index out of range is fault entry (R170). -/
theorem exec_sknp_of_gt {x : Nibble} {s : State} (h : (s.getV x).toNat > 0xF) :
    exec (.sknp x) s = .next (s.enterHalt (.keyIndexOutOfRange (s.getV x)) (some (encode (.sknp x)))) := by
  simp [exec, execSknp, keyCheck_eq_some.2 ⟨h, rfl⟩, finish]

end Sys2Proof.Skip
end

section
/-! Proofs of the family IndexMemory, continued (45_index_memory.md R221 to R226): ADD I and LD F as writes of I, Fx33 and
Fx55 from what a store of a list of bytes does, Fx65 from what a load of a list of registers does. -/

namespace Sys2Proof.IndexMemory

open Sys2Proof Sys2Proof.Machine

/-! ### ADD I and LD F -/

/-- ADD I with the flag variant off is one write of I (R221). -/
theorem exec_addIVx_of_unflagged {x : Nibble} {s : State} (h : s.cfg.fx1eSetsVF = false) :
    exec (.addIVx x) s = .next ((s.setI (BitVec.ofNat 16 (s.indexSum x))).setPc (s.pc + 2)) := by
  simp [exec, execAddIVx, finish, h]

/-- ADD I with the flag variant on writes VF after I (R221). -/
theorem exec_addIVx_of_flagged {x : Nibble} {s : State} (h : s.cfg.fx1eSetsVF = true) :
    exec (.addIVx x) s =
      .next (((s.setI (BitVec.ofNat 16 (s.indexSum x))).setV 0xF (indexFlag (s.indexSum x))).setPc (s.pc + 2)) := by
  simp [exec, execAddIVx, finish, h]

/-- The index flag in terms of the widened sum. -/
theorem indexFlag_eq (sum : Nat) : indexFlag sum = if sum > 0xFFF then 1 else 0 := by
  by_cases h : sum > 0xFFF <;> simp [indexFlag, flag, h]

/-- Settles O50: the variant decides whether the write of VF follows that of I. -/
theorem addIWrapsAndMaySetVF : Obligations.AddIWrapsAndMaySetVF := by
  intro x s
  refine ⟨or_appendX 0xF x 0x1E, ?_⟩
  cases hflag : s.cfg.fx1eSetsVF with
  | false =>
    exact ⟨_, exec_addIVx_of_unflagged hflag, BitVec.toNat_ofNat _ _, fun _ _ => rfl, fun _ => rfl, by simp, rfl,
      (setI_setPc_keeps s _ _).mono (by simp)⟩
  | true =>
    refine ⟨_, exec_addIVx_of_flagged hflag, BitVec.toNat_ofNat _ _, fun r hr => ?_, by simp, fun _ => ?_, rfl, ?_⟩
    · rw [State.setPc_getV, State.getV_setV, if_neg hr, State.setI_getV]
    · simp [indexFlag_eq, State.indexSum]
    · exact ((setI_keeps s _).mono (by simp)).trans ((Alu.setV_setPc_keeps _ 0xF _ _).mono (by simp))

/-- LD F writes five times `V[x]` to I and advances PC (R222). -/
theorem exec_ldFVx (x : Nibble) (s : State) :
    exec (.ldFVx x) s = .next ((s.setI (BitVec.ofNat 16 ((s.getV x).toNat * 5))).setPc (s.pc + 2)) := rfl

/-- Settles O51: five times a byte fits I. -/
theorem ldFPointsAtGlyph : Obligations.LdFPointsAtGlyph := by
  intro x s
  refine ⟨or_appendX 0xF x 0x29, _, exec_ldFVx x s, ?_, rfl, setI_setPc_keeps s _ _⟩
  have hbyte := (s.getV x).isLt
  rw [State.setPc_i, State.setI_i, BitVec.toNat_ofNat]
  omega

/-! ### Stores -/

/-- A store of bytes with its advance changes memory and PC only. -/
theorem writeBytes_setPc_keeps (s : State) (a : Nat) (bs : List Byte) (pc : Word) :
    KeepsExcept [.mem, .pc] s ((s.writeBytes a bs).setPc pc) := by
  rw [State.writeBytes_eq]
  intro c hc
  cases c with
  | mem | pc => simp at hc
  | v => exact fun _ => rfl
  | _ => rfl

/-- A store whose bytes may all be written writes them and advances PC. -/
theorem finishStore_of_writable {i : Instr} {bs : List Byte} {s : State} (h : s.Writable bs.length) :
    finishStore i bs s = .next ((s.writeBytes s.i.toNat bs).setPc (s.pc + 2)) := by
  have hpc := (State.writeBytes_handlerFrame s s.i.toNat bs).pc
  rw [finishStore, writeBlock_ok.2 h, finishChecked, finish, State.applyOutcome_advance, hpc]

/-- A store with a failing address is fault entry with nothing written. -/
theorem finishStore_of_failing {i : Instr} {bs : List Byte} {s : State} {r : HaltReason}
    (h : firstFailing (writeCheck s.cfg) s.i.toNat bs.length = some r) :
    finishStore i bs s = .next (s.enterHalt r (some (encode i))) := by
  rw [finishStore, h]
  rfl

/-- A byte outside the block that a store writes is as before. -/
theorem readByte_writeBytes_outside {s : State} {a c : Nat} {bs : List Byte} (h : c < a ∨ a + bs.length ≤ c) :
    (s.writeBytes a bs).readByte c = s.readByte c := by
  rw [State.readByte_writeBytes]
  split
  · exact List.getD_eq_default _ _ (by omega)
  · rfl

/-- Byte k of the block that a store writes. -/
theorem readByte_writeBytes_inside {s : State} {a k : Nat} {bs : List Byte} (h : k < bs.length) :
    (s.writeBytes a bs).readByte (a + k) = bs[k] := by
  rw [State.readByte_writeBytes, if_pos (by omega), Nat.add_sub_cancel_left, List.getD_eq_getElem]

/-- Byte k of the block that a store writes, as a number. -/
theorem toNat_readByte_writeBytes {s : State} {a k d : Nat} {bs : List Byte} (hd : d < 256)
    (hk : bs[k]? = some (BitVec.ofNat 8 d)) : ((s.writeBytes a bs).readByte (a + k)).toNat = d := by
  obtain ⟨hlt, hget⟩ := List.getElem?_eq_some_iff.1 hk
  rw [readByte_writeBytes_inside hlt, hget, BitVec.toNat_ofNat, Nat.mod_eq_of_lt hd]

/-- LD B is a store of the three digits (R223). -/
theorem exec_ldBVx (x : Nibble) (s : State) : exec (.ldBVx x) s = finishStore (.ldBVx x) (bcdDigits (s.getV x)) s := rfl

/-- LD [I] is a store of the first registers (R224). -/
theorem exec_ldMemVx (x : Nibble) (s : State) : exec (.ldMemVx x) s = finishStore (.ldMemVx x) (s.firstRegs x) s := rfl

/-- Settles O52: each digit of a byte fits a byte. -/
theorem ldBStoresDecimalDigits : Obligations.LdBStoresDecimalDigits := by
  intro x s
  refine ⟨or_appendX 0xF x 0x33, fun hw => ?_⟩
  have hbyte := (s.getV x).isLt
  exact ⟨_, (exec_ldBVx x s).trans (finishStore_of_writable hw),
    toNat_readByte_writeBytes (k := 0) (by omega) rfl, toNat_readByte_writeBytes (k := 1) (by omega) rfl,
    toNat_readByte_writeBytes (k := 2) (by omega) rfl, fun a ha => readByte_writeBytes_outside ha, rfl,
    writeBytes_setPc_keeps s _ _ _⟩

/-- Settles O53: byte r of the stored list is register r. -/
theorem ldMemStoresRegisters : Obligations.LdMemStoresRegisters := by
  intro x s
  have hlen := s.firstRegs_length x
  refine ⟨or_appendX 0xF x 0x55, fun hw => ?_⟩
  refine ⟨_, (exec_ldMemVx x s).trans (finishStore_of_writable (hlen ▸ hw)), fun r hr => ?_, fun a ha => ?_, rfl,
    writeBytes_setPc_keeps s _ _ _⟩
  · rw [State.setPc_readByte, readByte_writeBytes_inside (by omega), State.firstRegs_getElem, BitVec.ofNat_toNat,
      BitVec.setWidth_eq]
  · exact readByte_writeBytes_outside (by omega)

/-! ### Loads -/

/-- A load of registers with its advance changes the registers and PC only. -/
theorem loadRegs_setPc_keeps (s : State) (k : Nat) (bs : List Byte) (pc : Word) :
    KeepsExcept [.v, .pc] s ((s.loadRegs k bs).setPc pc) := by
  rw [State.loadRegs_eq]
  intro c hc
  cases c with
  | v | pc => simp at hc
  | mem => exact fun _ => rfl
  | _ => rfl

/-- LD Vx, [I] is a check of its reads and the load (R225). -/
theorem exec_ldVxMem (x : Nibble) (s : State) :
    exec (.ldVxMem x) s = finishChecked (.ldVxMem x) (firstFailing readCheck s.i.toNat (x.toNat + 1)) s
      (s.loadRegs 0 (s.readBytes s.i.toNat (x.toNat + 1))) := rfl

/-- LD Vx, [I] with its bytes in memory loads them and advances PC. -/
theorem exec_ldVxMem_of_inMemory {x : Nibble} {s : State} (h : s.InMemory (x.toNat + 1)) :
    exec (.ldVxMem x) s =
      .next ((s.loadRegs 0 (s.readBytes s.i.toNat (x.toNat + 1))).setPc (s.pc + 2)) := by
  have hpc := (State.loadRegs_handlerFrame s 0 (s.readBytes s.i.toNat (x.toNat + 1))).pc
  rw [exec_ldVxMem, readBlock_ok.2 h, finishChecked, finish, State.applyOutcome_advance, hpc]

/-- LD Vx, [I] with a byte outside memory is fault entry at the lowest such address. -/
theorem exec_ldVxMem_of_not_inMemory {x : Nibble} {s : State} (h : ¬ s.InMemory (x.toNat + 1)) :
    exec (.ldVxMem x) s =
      .next (s.enterHalt (.invalidAddress .data (max s.i.toNat 0x1000)) (some (encode (.ldVxMem x)))) := by
  rw [exec_ldVxMem, readBlock_fails h]
  rfl

/-- Settles O54: register r up to x is byte r of the bytes read. -/
theorem ldVxMemLoadsRegisters : Obligations.LdVxMemLoadsRegisters := by
  intro x s
  have hlen := s.readBytes_length s.i.toNat (x.toNat + 1)
  have hx := x.isLt
  refine ⟨or_appendX 0xF x 0x65, fun hmem => ⟨_, exec_ldVxMem_of_inMemory hmem, fun r => ?_, rfl,
    loadRegs_setPc_keeps s _ _ _⟩⟩
  rw [State.setPc_getV, State.getV_loadRegs _ _ _ _ (by omega), if_pos (Nat.zero_le _), Nat.sub_zero]
  split
  · rw [List.getD_eq_getElem _ _ (by omega), State.readBytes_getElem]
  · exact List.getD_eq_default _ _ (by omega)

/-- Settles O55: each transfer is fault entry at the address that its check reports. -/
theorem badTransferHaltsWithoutEffect : Obligations.BadTransferHaltsWithoutEffect := by
  intro x s
  have hlen := s.firstRegs_length x
  refine ⟨fun hmem hg => ?_, fun hmem hg => ?_, fun hguard hlow => ⟨?_, ?_⟩, fun hmem => ?_⟩
  · exact ⟨_, (exec_ldBVx x s).trans (finishStore_of_failing (writeBlock_fails hmem hg)), s.enterHalt_spec _ _⟩
  · have hfail := writeBlock_fails hmem hg
    exact ⟨_, (exec_ldMemVx x s).trans (finishStore_of_failing (hlen ▸ hfail)), s.enterHalt_spec _ _⟩
  · have hfail := writeBlock_guarded (n := 3) (by omega) hguard hlow
    exact ⟨_, (exec_ldBVx x s).trans (finishStore_of_failing hfail), s.enterHalt_spec _ _⟩
  · have hfail := writeBlock_guarded (n := x.toNat + 1) (by omega) hguard hlow
    exact ⟨_, (exec_ldMemVx x s).trans (finishStore_of_failing (hlen ▸ hfail)), s.enterHalt_spec _ _⟩
  · exact ⟨_, exec_ldVxMem_of_not_inMemory hmem, s.enterHalt_spec _ _⟩

/-- Settles O56, from what the store and the load do: what stands between them leaves I and memory as the store left them. -/
theorem storeThenLoadRestoresRegisters : Obligations.StoreThenLoadRestoresRegisters := by
  intro x s w hw
  obtain ⟨-, hstore⟩ := ldMemStoresRegisters x s
  obtain ⟨t, ht, hbytes, -, -, htkeeps⟩ := hstore hw
  have hti : t.i = s.i := htkeeps .i (by simp)
  obtain ⟨-, hload⟩ := ldVxMemLoadsRegisters x { t with v := w }
  obtain ⟨u, hu, hregs, -, hukeeps⟩ := hload (show t.InMemory _ by rw [State.InMemory, hti]; exact hw.1)
  have hui : u.i = t.i := hukeeps .i (by simp)
  refine ⟨t, u, ht, hu, fun r => ?_, hui.trans hti⟩
  rw [hregs]
  split
  · next hr => exact (congrArg (fun a => t.readByte (a.toNat + r.toNat)) hti).trans (hbytes r hr)
  · rfl

end Sys2Proof.IndexMemory
end

section
/-! Proofs of the family TimerKey, continued (46_timer_key.md R251): LD Vx, K. -/

namespace Sys2Proof.TimerKey

open Sys2Proof Sys2Proof.Machine

/-- A new mode leaves every component but the mode as it was. -/
theorem setMode_keeps (s : State) (m : Mode) : KeepsExcept [.mode] s (s.setMode m) := by
  intro c hc
  cases c with
  | mode => simp at hc
  | mem | v => exact fun _ => rfl
  | _ => rfl

/-- LD Vx, K writes the mode and nothing else (R251). -/
theorem exec_ldVxK (x : Nibble) (s : State) : exec (.ldVxK x) s = .next (s.setMode (.waitingForKey x)) := rfl

/-- Settles O58: LD Vx, K is one write of the mode. -/
theorem ldKSuspends : Obligations.LdKSuspends :=
  fun x s => ⟨or_appendX 0xF x 0x0A, _, exec_ldVxK x s, rfl, setMode_keeps s _⟩

end Sys2Proof.TimerKey
end

section
/-! What an instruction can do, said once for all 34 of them (40_cycle.md R103 to R105): the kinds of effect, each with the
instructions that have it, and the causes of a fault (60_exceptions.md R272). The rules over all instructions follow. -/

namespace Sys2Proof.Effects

open Sys2Proof Sys2Proof.Machine

/-! ### The kinds of effect -/

/-- Fx33 and Fx55. -/
def IsStore (i : Instr) : Prop := (∃ x, i = .ldBVx x) ∨ ∃ x, i = .ldMemVx x

/-- The instructions with a data address that is checked. -/
def IsTransfer (i : Instr) : Prop :=
  (∃ x y n, i = .drw x y n) ∨ (∃ x, i = .ldBVx x) ∨ (∃ x, i = .ldMemVx x) ∨ ∃ x, i = .ldVxMem x

/-- JP and JP V0. -/
def IsJump (i : Instr) : Prop := (∃ nnn, i = .jp nnn) ∨ ∃ nnn, i = .jpV0 nnn

/-- SKP and SKNP. -/
def IsKeySkip (i : Instr) : Prop := (∃ x, i = .skp x) ∨ ∃ x, i = .sknp x

/-- CLS and DRW. -/
def IsDisplay (i : Instr) : Prop := (∃ ign, i = .cls ign) ∨ ∃ x y n, i = .drw x y n

/-- The six conditional skips. -/
inductive IsSkip : Instr → Prop where
  | seImm (x : Nibble) (kk : Byte) : IsSkip (.seImm x kk)
  | sneImm (x : Nibble) (kk : Byte) : IsSkip (.sneImm x kk)
  | seReg (x y : Nibble) : IsSkip (.seReg x y)
  | sneReg (x y : Nibble) : IsSkip (.sneReg x y)
  | skp (x : Nibble) : IsSkip (.skp x)
  | sknp (x : Nibble) : IsSkip (.sknp x)

/-- Why the instruction `i` halts in a state with the parameters `cfg` (R272). -/
inductive FaultCause (i : Instr) (cfg : Config) : HaltReason → Prop where
  | underflow : (∃ ign, i = .ret ign) → FaultCause i cfg .stackUnderflow
  | overflow : (∃ nnn, i = .call nnn) → FaultCause i cfg .stackOverflow
  | jump {a : Nat} : IsJump i → 0xFFF ≤ a → FaultCause i cfg (.invalidAddress .jump a)
  | key {k : Byte} : IsKeySkip i → 0xF < k.toNat → FaultCause i cfg (.keyIndexOutOfRange k)
  | data {a : Nat} : IsTransfer i → 0xFFF < a → FaultCause i cfg (.invalidAddress .data a)
  | guard {a : Nat} : IsStore i → cfg.lowGuard = true → a < 0x200 → FaultCause i cfg (.protectedAddress .data a)

/-- What executing `i` in `s` can leave: one constructor for each kind of effect. -/
inductive Effect (i : Instr) (s : State) : State → Prop where
  | fault {r : HaltReason} : FaultCause i s.cfg r → Effect i s (s.enterHalt r (some (encode i)))
  | draws (g : Gfx) (v : Vector Byte 16) : IsDisplay i →
      Effect i s { s with gfx := g, v := v, draw := true, pc := s.pc + 2 }
  | stores (bs : List Byte) : IsStore i → s.Writable bs.length →
      Effect i s ((s.writeBytes s.i.toNat bs).setPc (s.pc + 2))
  | registers (v : Vector Byte 16) (index : Word) (dt st : Byte) :
      Effect i s { s with v := v, i := index, dt := dt, st := st, pc := s.pc + 2 }
  | skips {pc : Word} : IsSkip i → pc = s.pc + 2 ∨ pc = s.pc + 4 → Effect i s (s.setPc pc)
  | jumps {a : Nat} : IsJump i → a < 4095 → Effect i s (s.setPc (BitVec.ofNat 16 a))
  | calls {nnn : Addr} {t : State} : i = .call nnn → s.push (s.pc + 2) = some t → Effect i s (t.setPc (nnn.setWidth 16))
  | returns {ign : Nibble} {t : State} {w : Word} : i = .ret ign → s.pop = some (w, t) → Effect i s (t.setPc w)
  | waits {x : Nibble} : i = .ldVxK x → Effect i s (s.setMode (.waitingForKey x))

/-! ### Each instruction has one of these effects -/

/-- The one next state of an outcome that is known. -/
theorem Effect.of_eq {i : Instr} {s t u : State} {r : Host.Outcome State Fault Refusal} (h : r = .next t)
    (hr : r = .next u) (hu : Effect i s u) : Effect i s t := by
  obtain rfl : u = t := by simpa using hr.symm.trans h
  exact hu

/-- A failing block of reads has an address above 0xFFF. -/
theorem readBlock_cause {i : Instr} (cfg : Config) {base n : Nat} {r : HaltReason} (hi : IsTransfer i)
    (h : firstFailing readCheck base n = some r) : FaultCause i cfg r := by
  obtain ⟨k, -, hk, -⟩ := firstFailing_eq_some.1 h
  obtain ⟨ha, rfl⟩ := readCheck_eq_some.1 hk
  exact .data hi ha

/-- A store is a transfer. -/
theorem IsStore.isTransfer {i : Instr} (h : IsStore i) : IsTransfer i := .inr (h.imp id .inl)

/-- A failing block of writes has an address above 0xFFF, or one below 0x200 under LOW_GUARD. -/
theorem writeBlock_cause {i : Instr} {cfg : Config} {base n : Nat} {r : HaltReason} (hi : IsStore i)
    (h : firstFailing (writeCheck cfg) base n = some r) : FaultCause i cfg r := by
  obtain ⟨k, -, hk, -⟩ := firstFailing_eq_some.1 h
  obtain ⟨ha, rfl⟩ | ⟨hg, ha, rfl⟩ := writeCheck_eq_some.1 hk
  · exact .data hi.isTransfer ha
  · exact .guard hi hg ha

/-- A store: its block of writes passes the check or is fault entry. -/
theorem effect_of_finishStore {i : Instr} {bs : List Byte} {s t : State} (hi : IsStore i)
    (h : finishStore i bs s = .next t) : Effect i s t := by
  cases hc : firstFailing (writeCheck s.cfg) s.i.toNat bs.length with
  | none =>
    have hw := writeBlock_ok.1 hc
    exact .of_eq h (IndexMemory.finishStore_of_writable hw) (.stores bs hi hw)
  | some r => exact .of_eq h (IndexMemory.finishStore_of_failing hc) (.fault (writeBlock_cause hi hc))

/-- A skip on a comparison. -/
theorem effect_of_skipIf {i : Instr} {c : Bool} {s t : State} (hi : IsSkip i)
    (h : finish i (skipIf c) s = .next t) : Effect i s t :=
  .of_eq h (congrArg Host.Outcome.next (applyOutcome_skipIf s _ c)) (.skips hi (ite_eq_or_eq _ _ _).symm)

/-- A jump to a checked target. -/
theorem effect_of_jumpTo {i : Instr} {a : Nat} {s t : State} (hi : IsJump i)
    (h : finish i (jumpTo a) s = .next t) : Effect i s t := by
  unfold finish at h
  obtain ha | ha := Nat.lt_or_ge a 4095
  · rw [jumpTo_of_lt ha] at h
    exact .of_eq h rfl (.jumps hi ha)
  · rw [jumpTo_of_ge ha] at h
    exact .of_eq h rfl (.fault (.jump hi ha))

/-- SKP: the key index is in range or not. -/
theorem effect_of_skp {x : Nibble} {s t : State} (h : exec (.skp x) s = .next t) : Effect (.skp x) s t := by
  obtain hk | hk := le_or_gt (s.getV x).toNat 0xF
  · exact .of_eq h (Skip.exec_skp_of_le hk) (.skips (.skp x) (ite_eq_or_eq _ _ _).symm)
  · exact .of_eq h (Skip.exec_skp_of_gt hk) (.fault (.key (.inl ⟨x, rfl⟩) hk))

/-- SKNP: the key index is in range or not. -/
theorem effect_of_sknp {x : Nibble} {s t : State} (h : exec (.sknp x) s = .next t) : Effect (.sknp x) s t := by
  obtain hk | hk := le_or_gt (s.getV x).toNat 0xF
  · exact .of_eq h (Skip.exec_sknp_of_le hk) (.skips (.sknp x) (ite_eq_or_eq _ _ _))
  · exact .of_eq h (Skip.exec_sknp_of_gt hk) (.fault (.key (.inr ⟨x, rfl⟩) hk))

/-- DRW: its sprite is in memory or not. -/
theorem effect_of_drw {x y n : Nibble} {s t : State} (h : exec (.drw x y n) s = .next t) : Effect (.drw x y n) s t := by
  by_cases hm : s.InMemory n.toNat
  · exact .of_eq h (Display.exec_drw_of_inMemory hm) (.draws _ _ (.inr ⟨x, y, n, rfl⟩))
  · have hcause := readBlock_cause s.cfg (.inl ⟨x, y, n, rfl⟩) (readBlock_fails hm)
    exact .of_eq h (Display.exec_drw_of_not_inMemory hm) (.fault hcause)

/-- LD Vx, [I]: its bytes are in memory or not. -/
theorem effect_of_ldVxMem {x : Nibble} {s t : State} (h : exec (.ldVxMem x) s = .next t) : Effect (.ldVxMem x) s t := by
  by_cases hm : s.InMemory (x.toNat + 1)
  · have hload := IndexMemory.exec_ldVxMem_of_inMemory hm
    rw [State.loadRegs_eq] at hload
    exact .of_eq h hload (.registers _ _ _ _)
  · have hcause := readBlock_cause s.cfg (.inr (.inr (.inr ⟨x, rfl⟩))) (readBlock_fails hm)
    exact .of_eq h (IndexMemory.exec_ldVxMem_of_not_inMemory hm) (.fault hcause)

/-- RET: there is an entry to pop or not. -/
theorem effect_of_ret {ign : Nibble} {s t : State} (h : exec (.ret ign) s = .next t) : Effect (.ret ign) s t := by
  cases hp : s.pop with
  | none => exact .of_eq h (Flow.exec_ret_of_pop_eq_none hp) (.fault (.underflow ⟨ign, rfl⟩))
  | some wt => exact .of_eq h (Flow.exec_ret_of_pop_eq_some hp) (.returns rfl hp)

/-- CALL: there is a free slot or not. -/
theorem effect_of_call {nnn : Addr} {s t : State} (h : exec (.call nnn) s = .next t) : Effect (.call nnn) s t := by
  cases hp : s.push (s.pc + 2) with
  | none => exact .of_eq h (Flow.exec_call_of_push_eq_none hp) (.fault (.overflow ⟨nnn, rfl⟩))
  | some u => exact .of_eq h (Flow.exec_call_of_push_eq_some hp) (.calls rfl hp)

/-- ADD I under either value of the flag variant. -/
theorem effect_of_addIVx {x : Nibble} {s t : State} (h : exec (.addIVx x) s = .next t) : Effect (.addIVx x) s t := by
  cases hf : s.cfg.fx1eSetsVF with
  | false => exact .of_eq h (IndexMemory.exec_addIVx_of_unflagged hf) (.registers _ _ _ _)
  | true => exact .of_eq h (IndexMemory.exec_addIVx_of_flagged hf) (.registers _ _ _ _)

/-- Every instruction has one of the effects in every state. -/
theorem effect_of_exec {i : Instr} {s t : State} (h : exec i s = .next t) : Effect i s t := by
  cases i with
  | cls ign => exact .of_eq h rfl (.draws _ _ (.inl ⟨ign, rfl⟩))
  | drw x y n => exact effect_of_drw h
  | ret ign => exact effect_of_ret h
  | call nnn => exact effect_of_call h
  | jp nnn => exact effect_of_jumpTo (.inl ⟨nnn, rfl⟩) h
  | jpV0 nnn => exact effect_of_jumpTo (.inr ⟨nnn, rfl⟩) h
  | seImm x kk => exact effect_of_skipIf (.seImm x kk) h
  | sneImm x kk => exact effect_of_skipIf (.sneImm x kk) h
  | seReg x y => exact effect_of_skipIf (.seReg x y) h
  | sneReg x y => exact effect_of_skipIf (.sneReg x y) h
  | skp x => exact effect_of_skp h
  | sknp x => exact effect_of_sknp h
  | addIVx x => exact effect_of_addIVx h
  | ldVxMem x => exact effect_of_ldVxMem h
  | ldBVx x => exact effect_of_finishStore (.inl ⟨x, rfl⟩) h
  | ldMemVx x => exact effect_of_finishStore (.inr ⟨x, rfl⟩) h
  | ldVxK x => exact .of_eq h rfl (.waits rfl)
  | ldImm | addImm | ldReg | orReg | andReg | xorReg | addReg | subReg | shr | subnReg | shl | ldI | rnd | ldVxDt | ldDtVx
  | ldStVx | ldFVx => exact .of_eq h rfl (.registers _ _ _ _)

/-! ### What an effect changes -/

/-- New registers, index, timers and PC leave every other component as it was. -/
theorem registers_keeps (s : State) (v : Vector Byte 16) (index : Word) (dt st : Byte) (pc : Word) :
    KeepsExcept [.v, .i, .dt, .st, .pc] s { s with v := v, i := index, dt := dt, st := st, pc := pc } := by
  intro c hc
  cases c with
  | v | i | dt | st | pc => simp at hc
  | mem => exact fun _ => rfl
  | _ => rfl

/-- A new display, register file, draw flag and PC leave every other component as it was. -/
theorem draws_keeps (s : State) (g : Gfx) (v : Vector Byte 16) (draw : Bool) (pc : Word) :
    KeepsExcept [.gfx, .v, .draw, .pc] s { s with gfx := g, v := v, draw := draw, pc := pc } := by
  intro c hc
  cases c with
  | gfx | v | draw | pc => simp at hc
  | mem => exact fun _ => rfl
  | _ => rfl

/-- Fault entry changes the mode and the halt output only (60_exceptions.md R275). -/
theorem enterHalt_keeps (s : State) (r : HaltReason) (op : Option Word) :
    KeepsExcept [.mode, .haltOut] s (s.enterHalt r op) := by
  obtain ⟨_, -, -, -, -, -, hkeeps⟩ := s.enterHalt_spec r op
  exact hkeeps

/-- Which instructions change the display, memory, SP and the stack; no instruction changes an input, a parameter, the
schedule, the frame output or the report output. -/
theorem Effect.keepsExcept {i : Instr} {s t : State} (h : Effect i s t) :
    KeepsExcept [.v, .i, .dt, .st, .pc, .mode, .haltOut] s t ∨
    (IsDisplay i ∧ KeepsExcept [.gfx, .v, .draw, .pc] s t) ∨
    (IsStore i ∧ KeepsExcept [.mem, .pc] s t) ∨
    (((∃ nnn, i = .call nnn) ∨ ∃ ign, i = .ret ign) ∧ KeepsExcept [.sp, .stack, .pc] s t) := by
  cases h with
  | fault _ => exact .inl ((enterHalt_keeps s _ _).mono (by simp))
  | draws g v hi => exact .inr (.inl ⟨hi, draws_keeps s g v true _⟩)
  | stores bs hi _ => exact .inr (.inr (.inl ⟨hi, IndexMemory.writeBytes_setPc_keeps s _ bs _⟩))
  | registers v index dt st => exact .inl ((registers_keeps s v index dt st _).mono (by simp))
  | skips _ _ => exact .inl ((Flow.setPc_keeps s _).mono (by simp))
  | jumps _ _ => exact .inl ((Flow.setPc_keeps s _).mono (by simp))
  | calls hi hpush =>
    exact .inr (.inr (.inr ⟨.inl ⟨_, hi⟩,
      ((Flow.push_keeps hpush).mono (by simp)).trans ((Flow.setPc_keeps _ _).mono (by simp))⟩))
  | returns hi hpop =>
    exact .inr (.inr (.inr ⟨.inr ⟨_, hi⟩,
      ((Flow.pop_keeps hpop).mono (by simp)).trans ((Flow.setPc_keeps _ _).mono (by simp))⟩))
  | waits _ => exact .inl ((TimerKey.setMode_keeps s _).mono (by simp))

/-- An effect is fault entry, or the key wait of LD Vx, K, or keeps the mode. -/
theorem Effect.mode_cases {i : Instr} {s t : State} (h : Effect i s t) :
    (∃ r, FaultCause i s.cfg r ∧ t = s.enterHalt r (some (encode i))) ∨
    (∃ x, i = .ldVxK x ∧ t = s.setMode (.waitingForKey x)) ∨ t.mode = s.mode := by
  cases h with
  | fault hc => exact .inl ⟨_, hc, rfl⟩
  | waits hi => exact .inr (.inl ⟨_, hi, rfl⟩)
  | stores bs _ _ => exact .inr (.inr (State.writeBytes_handlerFrame s _ bs).mode)
  | calls _ hpush => exact .inr (.inr (Flow.push_keeps hpush .mode (by simp)))
  | returns _ hpop => exact .inr (.inr (Flow.pop_keeps hpop .mode (by simp)))
  | draws | registers | skips | jumps => exact .inr (.inr rfl)

/-- A driver that has not halted is in no halted mode. -/
theorem mode_ne_halted {s : State} {d : Diag} (h : s.mode.isHalted = false) : s.mode ≠ .halted d := by
  intro hd
  simp [hd, Mode.isHalted] at h

/-- An effect that halts is fault entry, with a cause. -/
theorem Effect.halts {i : Instr} {s t : State} {d : Diag} (h : Effect i s t) (hs : s.mode.isHalted = false)
    (hd : t.mode = .halted d) :
    ∃ r, FaultCause i s.cfg r ∧ t = s.enterHalt r (some (encode i)) ∧ d = s.diag r (some (encode i)) := by
  obtain ⟨r, hc, rfl⟩ | ⟨x, -, rfl⟩ | hmode := h.mode_cases
  · exact ⟨r, hc, rfl, (Mode.halted.inj hd).symm⟩
  · cases hd
  · exact absurd (hmode.symm.trans hd) (mode_ne_halted hs)

/-! ### The rules over all instructions -/

/-- Settles O24: each cause of a fault is one of the listed ones. -/
theorem onlyListedInstructionsFault : Obligations.OnlyListedInstructionsFault := by
  intro i s t d hs h hd
  obtain ⟨r, hc, -, rfl⟩ := (effect_of_exec h).halts hs hd
  cases hc with
  | underflow hi => exact .inl ⟨hi, rfl⟩
  | overflow hi => exact .inr (.inl ⟨hi, rfl⟩)
  | jump hi ha => exact .inr (.inr (.inl ⟨hi, _, rfl, ha⟩))
  | key hi hk => exact .inr (.inr (.inr (.inl ⟨hi, _, rfl, hk⟩)))
  | data hi ha => exact .inr (.inr (.inr (.inr (.inl ⟨hi, _, rfl, ha⟩))))
  | guard hi hg ha => exact .inr (.inr (.inr (.inr (.inr ⟨hi, hg, _, rfl, ha⟩))))

/-- Settles O25: an instruction that halts is fault entry from the state before it. -/
theorem faultingInstructionHasNoEffect : Obligations.FaultingInstructionHasNoEffect := by
  intro i s t d hs h hd
  obtain ⟨r, -, rfl, rfl⟩ := (effect_of_exec h).halts hs hd
  exact ⟨rfl, rfl, rfl, rfl, rfl, rfl, rfl, enterHalt_keeps s r _⟩

/-- Settles O26: of all effects only a draw changes the two. -/
theorem onlyClsAndDrwChangeDisplay : Obligations.OnlyClsAndDrwChangeDisplay := by
  intro i s t hcls hdrw h
  obtain hk | ⟨⟨ign, hi⟩ | ⟨x, y, n, hi⟩, -⟩ | ⟨-, hk⟩ | ⟨-, hk⟩ := (effect_of_exec h).keepsExcept
  · exact ⟨hk .gfx (by simp), hk .draw (by simp)⟩
  · exact absurd hi (hcls ign)
  · exact absurd hi (hdrw x y n)
  · exact ⟨hk .gfx (by simp), hk .draw (by simp)⟩
  · exact ⟨hk .gfx (by simp), hk .draw (by simp)⟩

/-- Settles O27: of all effects only a store changes memory. -/
theorem onlyStoresChangeMemory : Obligations.OnlyStoresChangeMemory := by
  intro i s t hbcd hregs h
  obtain hk | ⟨-, hk⟩ | ⟨⟨x, hi⟩ | ⟨x, hi⟩, -⟩ | ⟨-, hk⟩ := (effect_of_exec h).keepsExcept
  · exact hk .mem (by simp)
  · exact hk .mem (by simp)
  · exact absurd hi (hbcd x)
  · exact absurd hi (hregs x)
  · exact hk .mem (by simp)

/-- Settles O30: none of the six stands in the list of any effect. -/
theorem instructionsLeaveInputsAlone : Obligations.InstructionsLeaveInputsAlone := by
  intro i s t h
  obtain hk | ⟨-, hk⟩ | ⟨-, hk⟩ | ⟨-, hk⟩ := (effect_of_exec h).keepsExcept
  · exact hk.mono (by simp)
  · exact hk.mono (by simp)
  · exact hk.mono (by simp)
  · exact hk.mono (by simp)

/-- What an effect does to SP and the stack: nothing, or a push by CALL, or a pop by RET. -/
theorem Effect.stack_cases {i : Instr} {s t : State} (h : Effect i s t) :
    (t.sp = s.sp ∧ t.stack = s.stack) ∨
    ((∃ nnn, i = .call nnn) ∧ s.sp.val < 16 ∧ t.sp.val = s.sp.val + 1 ∧
      ∀ k : Fin 16, t.stack[k] = if k.val = s.sp.val then s.pc + 2 else s.stack[k]) ∨
    ((∃ ign, i = .ret ign) ∧ 0 < s.sp.val ∧ t.sp.val + 1 = s.sp.val ∧ t.stack = s.stack) := by
  cases h with
  | calls hi hpush =>
    obtain ⟨hlt, rfl⟩ := State.push_eq_some.1 hpush
    have hstack := Flow.stack_set_getElem s.stack (s.pc + 2) ⟨s.sp.val, hlt⟩
    exact .inr (.inl ⟨⟨_, hi⟩, hlt, rfl, fun k => by simpa [Fin.ext_iff] using hstack k⟩)
  | returns hi hpop =>
    obtain ⟨hpos, -, rfl⟩ := State.pop_eq_some.1 hpop
    exact .inr (.inr ⟨⟨_, hi⟩, hpos, Nat.sub_add_cancel hpos, rfl⟩)
  | stores bs _ _ =>
    have hk := IndexMemory.writeBytes_setPc_keeps s s.i.toNat bs (s.pc + 2)
    exact .inl ⟨hk .sp (by simp), hk .stack (by simp)⟩
  | fault | draws | registers | skips | jumps | waits => exact .inl ⟨rfl, rfl⟩

/-- Settles O28: of all effects only a push and a pop touch SP, and only a push the stack. -/
theorem onlyCallAndRetMoveStack : Obligations.OnlyCallAndRetMoveStack := by
  intro i s t h
  obtain ⟨hsp, hst⟩ | ⟨hi, hlt, hsp, hst⟩ | ⟨hi, hpos, hsp, hst⟩ := (effect_of_exec h).stack_cases
  · exact ⟨.inl hsp, fun k => .inl (by rw [hst])⟩
  · refine ⟨.inr (.inl ⟨hi, hlt, hsp⟩), fun k => ?_⟩
    by_cases hk : k.val = s.sp.val
    · exact .inr ⟨hi, hk⟩
    · exact .inl ((hst k).trans (if_neg hk))
  · exact ⟨.inr (.inr ⟨hi, hpos, hsp⟩), fun k => .inl (by rw [hst])⟩

/-- Settles O29: the other effects are fault entry, a transfer of control, a skip and the key wait. -/
theorem pcAdvancesByTwo : Obligations.PcAdvancesByTwo := by
  intro i s t h _ hrun hjp hjpV0 hcall hret hseImm hsneImm hseReg hsneReg hskp hsknp
  cases effect_of_exec h with
  | draws | stores | registers => rfl
  | fault | waits => cases hrun
  | jumps hi _ => exact hi.elim (fun ⟨nnn, e⟩ => absurd e (hjp nnn)) (fun ⟨nnn, e⟩ => absurd e (hjpV0 nnn))
  | calls hi _ => exact absurd hi (hcall _)
  | returns hi _ => exact absurd hi (hret _)
  | skips hi _ =>
    cases hi with
    | seImm x kk => exact absurd rfl (hseImm x kk)
    | sneImm x kk => exact absurd rfl (hsneImm x kk)
    | seReg x y => exact absurd rfl (hseReg x y)
    | sneReg x y => exact absurd rfl (hsneReg x y)
    | skp x => exact absurd rfl (hskp x)
    | sknp x => exact absurd rfl (hsknp x)

end Sys2Proof.Effects
end

section
/-! Proofs of the family Init (70_reset_and_hazards.md R310, R311; 10_state.md R43): the blank state and the ROM in it. -/

namespace Sys2Proof.Init

open Sys2Proof Sys2Proof.Machine

/-- A byte of the blank state is what an unlisted address reads as: the font, and zero above it (R43). -/
theorem readByte_blank (cfg : Config) (a : Nat) : (State.blank cfg).readByte a = Memory.unlisted cfg a := rfl

/-- Init of a ROM that fits stores it at 0x200 (R310). -/
theorem init_of_le {cfg : Config} {rom : List Byte} (h : rom.length ≤ 3584) :
    State.init cfg (.bytes rom) = some ((State.blank cfg).writeBytes 0x200 rom) := if_neg (Nat.not_lt.2 h)

/-- Settles O16: the ROM is a store of its bytes into the blank state, inside memory. -/
theorem initSeedsFontAndRom : Obligations.InitSeedsFontAndRom := by
  intro cfg
  refine ⟨rfl, fun rom => ⟨fun h => if_pos h, fun h => ⟨_, init_of_le h, ?_⟩⟩⟩
  have outside {a : Nat} (ha : a < 0x200 ∨ 0x200 + rom.length ≤ a) :
      ((State.blank cfg).writeBytes 0x200 rom).readByte a = Memory.unlisted cfg a :=
    (IndexMemory.readByte_writeBytes_outside ha).trans (readByte_blank cfg a)
  refine ⟨fun a ha => (outside (by omega)).trans (dif_pos ha),
    fun a h1 h2 => (outside (.inl h2)).trans (dif_neg (by omega)),
    fun k hk => IndexMemory.readByte_writeBytes_inside hk, fun a ha => (outside (.inr ha)).trans (dif_neg (by omega)),
    State.writeBytes_memOk rom (by omega) (Memory.nil_wf _), ?_⟩
  rw [State.writeBytes_eq]
  refine ⟨rfl, rfl, rfl, fun r => ?_, rfl, rfl, fun k => ?_, rfl, rfl, Gfx.pixel_blank, rfl, rfl⟩
  · exact Vector.getElem_replicate _
  · exact Vector.getElem_replicate _

/-- Settles O17: a store of no bytes changes nothing. -/
theorem resetIsInitOfEmptyRom : Obligations.ResetIsInitOfEmptyRom := init_of_le (Nat.zero_le _)

/-- Settles O18: reset is running, with empty memory, a zero stack and no draw. -/
theorem invariantsHoldAtReset : Obligations.InvariantsHoldAtReset := by
  have running {d : Diag} : State.reset.mode ≠ .halted d := Mode.noConfusion
  refine ⟨State.reset_memOk, ⟨by decide, fun k => ?_, fun x => Mode.noConfusion⟩, fun d hd => absurd hd running, rfl,
    fun d hd => absurd hd running⟩
  have hzero : State.reset.stack[k] = 0 := Vector.getElem_replicate _
  rw [hzero]
  decide

end Sys2Proof.Init
end

section
/-! Proofs of the family Cycle, continued (40_cycle.md R100 to R111, 60_exceptions.md R275 to R286): what each kind of tick
does, and what a step that executes an instruction does. -/

namespace Sys2Proof.Cycle

open Sys2Proof Sys2Proof.Machine

/-! ### One kind of tick each -/

/-- A tick in Running on a word that decodes executes the instruction and hands the display off (R108). -/
theorem step_instr {s : State} {inp : TickInput} {i : Instr} (ht : s.InstrTickNext inp) (hm : s.mode = .running)
    (hp : s.pc.toNat ≤ 0xFFE) (hg : s.cfg.lowGuard = false ∨ 0x200 ≤ s.pc.toNat)
    (hd : decodeWord s.cfg.zeroGroupMask s.fetchWord = some i) :
    step s = onNext State.handOff (exec i (s.latched inp)) := by
  rw [step_running ht hm, State.fetchAndExecute_instr (s := s.latched inp) hp hg (by simpa using hd)]

/-- The bytes of a word that decode to an instruction with none left: the word decodes to it. -/
theorem decodeWord_of_decode {m : ZeroGroupMask} {hi lo : Byte} {i : Instr} (h : decode m [hi, lo] = .instr i []) :
    decodeWord m (wordOfBytes hi lo) = some i := by
  rw [decode_cons] at h
  cases hd : decodeWord m (wordOfBytes hi lo) with
  | none => simp [hd] at h
  | some j => simpa [hd] using h

/-- Settles O7: the two bytes decode as their word does. -/
theorem stepRunsDecodedInstruction : Obligations.StepRunsDecodedInstruction :=
  fun _ _ _ ht hm hp hg hd => step_instr ht hm hp hg (decodeWord_of_decode hd)

/-- A tick in Running whose fetch fails is fault entry without an opcode (R101). -/
theorem step_badFetch {s : State} {inp : TickInput} {r : HaltReason} (ht : s.InstrTickNext inp) (hm : s.mode = .running)
    (hdraw : s.DrawOk) (hf : fetchCheck s.cfg s.pc = some r) : step s = .next ((s.latched inp).enterHalt r none) := by
  have hfetch : (s.latched inp).fetchAndExecute = .next ((s.latched inp).enterHalt r none) := by
    simp [State.fetchAndExecute, hf]
  rw [step_running ht hm, hfetch]
  exact congrArg Host.Outcome.next (State.handOff_of_clear hdraw)

/-- A fetch above 0xFFE fails (R101). -/
theorem fetchCheck_of_gt {cfg : Config} {pc : Word} (h : pc.toNat > 0xFFE) :
    fetchCheck cfg pc = some (.invalidAddress .fetch pc.toNat) := if_pos h

/-- Under LOW_GUARD a fetch below 0x200 fails (R101). -/
theorem fetchCheck_of_guarded {cfg : Config} {pc : Word} (hg : cfg.lowGuard = true) (h : pc.toNat < 0x200) :
    fetchCheck cfg pc = some (.protectedAddress .fetch pc.toNat) := by
  rw [fetchCheck, if_neg (by omega), if_pos (by simp [hg, h])]

/-- Settles O9: either fetch check fails, and no frame waits for the hand-off. -/
theorem badFetchHalts : Obligations.BadFetchHalts := by
  intro s inp ht hm hdraw
  exact ⟨fun hp => ⟨_, step_badFetch ht hm hdraw (fetchCheck_of_gt hp), State.enterHalt_spec _ _ _⟩,
    fun hg hp => ⟨_, step_badFetch ht hm hdraw (fetchCheck_of_guarded hg hp), State.enterHalt_spec _ _ _⟩⟩

/-- Settles O10: a quit is fault entry from the latched state, and no frame waits for the hand-off. -/
theorem quitHaltsBeforeExecution : Obligations.QuitHaltsBeforeExecution := by
  intro s inp ht hq hm hdraw
  have hclear : ((s.latched inp).enterHalt .userQuit none).handOff = (s.latched inp).enterHalt .userQuit none :=
    State.handOff_of_clear hdraw
  exact ⟨_, hclear ▸ step_quit ht hq hm, State.enterHalt_spec _ _ _⟩

/-- The key wait leaves the draw flag as it was. -/
theorem keyWait_draw (s : State) (x : Nibble) (ks : List Nibble) : (s.keyWait x ks).draw = s.draw := by
  cases ks with
  | nil | cons => rfl

/-- A tick in WaitingForKey with no frame waiting is the key wait from the latched state (R109). -/
theorem step_keyWait {s : State} {inp : TickInput} {x : Nibble} (ht : s.InstrTickNext inp)
    (hm : s.mode = .waitingForKey x) (hdraw : s.DrawOk) :
    step s = .next ((s.latched inp).keyWait x inp.keydownIn) := by
  have hclear : ((s.latched inp).keyWait x inp.keydownIn).draw = false := (keyWait_draw _ _ _).trans hdraw
  rw [step_waiting ht hm, State.handOff_of_clear hclear]

/-- Settles O11: without an event the key wait leaves the latched state; with one it is three writes. -/
theorem keyWaitTakesFirstKeyDown : Obligations.KeyWaitTakesFirstKeyDown := by
  intro s inp x ht hm hdraw
  have hstep := step_keyWait ht hm hdraw
  refine ⟨fun hkeys => ?_, fun k ks hkeys => ?_⟩
  · rw [hkeys] at hstep
    exact ⟨_, hstep, .refl _ _⟩
  · rw [hkeys] at hstep
    refine ⟨_, hstep, fun r => ?_, rfl, rfl, ?_⟩
    · simp [State.keyWait, BitVec.ofNat_toNat]
    · exact ((Alu.setV_setPc_keeps _ x _ _).mono (by simp)).trans ((TimerKey.setMode_keeps _ _).mono (by simp))

/-- One decrement of a timer as a number (10_state.md R29, R30). -/
theorem countDown_toNat (b : Byte) : (countDown b).toNat = b.toNat - 1 := by
  unfold countDown
  split
  · exact BitVec.toNat_sub_of_le (x := b) (y := 1) (by bv_omega)
  · omega

/-- Settles O12: the tick is two writes, and the mode is as before. -/
theorem timerTickDecrementsBothTimers : Obligations.TimerTickDecrementsBothTimers := by
  intro s ht hm
  exact ⟨_, step_timer ht hm, countDown_toNat s.dt, countDown_toNat s.st, TimerKey.toneOut_of_not_halted hm,
    ((TimerKey.setDt_keeps _ _).mono (by simp)).trans ((TimerKey.setSt_keeps _ _).mono (by simp))⟩

/-! ### Halted -/

/-- A run from a halted state takes the ticks and nothing else. -/
theorem run_halted (k : Nat) {s : State} (h : s.mode.isHalted = true) :
    Host.Core.run Sys2Proof.core k s = .next (State.ticked^[k] s) := by
  induction k generalizing s with
  | zero => rfl
  | succ k ih => rw [core_run_succ k (step_halted h), ih (s := s.ticked) h, Function.iterate_succ_apply]

/-- Taking ticks keeps every component but the schedule and the outputs. -/
theorem iterate_ticked_keeps (k : Nat) (s : State) :
    KeepsExcept [.ticks, .drawn, .frameOut, .reportOut, .haltOut] s (State.ticked^[k] s) := by
  induction k with
  | zero => exact .refl _ _
  | succ k ih =>
    rw [Function.iterate_succ_apply']
    exact ih.trans (State.ticked_keeps _)

/-- Settles O13: the last tick taken cleared the outputs. -/
theorem haltedIsTerminal : Obligations.HaltedIsTerminal := by
  intro k s h
  have hkeeps := iterate_ticked_keeps k s
  have hmode : (State.ticked^[k] s).mode = s.mode := hkeeps .mode (by simp)
  refine ⟨_, run_halted k h, hkeeps, by simp [State.toneOut, hmode, h], fun hk => ?_⟩
  obtain ⟨j, rfl⟩ : ∃ j, k = j + 1 := ⟨k - 1, by omega⟩
  rw [Function.iterate_succ_apply']
  exact ⟨rfl, rfl, rfl⟩

/-! ### A step that executes an instruction -/

/-- A step that executes an instruction answers the hand-off of what the instruction left. -/
theorem step_of_exec {s u : State} {inp : TickInput} {i : Instr} (ht : s.InstrTickNext inp) (hm : s.mode = .running)
    (hp : s.pc.toNat ≤ 0xFFE) (hg : s.cfg.lowGuard = false ∨ 0x200 ≤ s.pc.toNat)
    (hd : decodeWord s.cfg.zeroGroupMask s.fetchWord = some i) (hu : exec i (s.latched inp) = .next u) :
    step s = .next u.handOff := by
  rw [step_instr ht hm hp hg hd, hu]
  rfl

/-- The frame that a hand-off emits (R110). -/
theorem handOff_frameOut (s : State) : s.handOff.frameOut = if s.draw then some s.gfx else s.frameOut := by
  rw [State.handOff_eq]

/-- The frame of a DRW from a state with no frame waiting: the display it left, unless it halted. -/
theorem frameOut_of_drw {s u : State} {x y n : Nibble} (hm : s.mode = .running) (hdraw : s.DrawOk)
    (hframe : s.frameOut = none) (hu : exec (.drw x y n) s = .next u) :
    u.handOff.frameOut = if u.mode.isHalted then none else some u.gfx := by
  rw [handOff_frameOut]
  by_cases hmem : s.InMemory n.toNat
  · obtain rfl : _ = u := Host.Outcome.next.inj ((Display.exec_drw_of_inMemory hmem).symm.trans hu)
    have hmode : ((s.drawSprite x y n).setPc (s.pc + 2)).mode = .running := hm
    rw [hmode]
    rfl
  · obtain rfl : _ = u := Host.Outcome.next.inj ((Display.exec_drw_of_not_inMemory hmem).symm.trans hu)
    rw [if_neg (by rw [State.enterHalt_draw, hdraw]; simp)]
    exact hframe

/-- Settles O15: a frame is emitted exactly when the instruction left the draw flag set. -/
theorem framesComeFromClsAndDrw : Obligations.FramesComeFromClsAndDrw := by
  intro s inp i ht hm hdraw hp hg hd
  obtain ⟨u, hu⟩ := exec_answers i (s.latched inp)
  have hkeeps := Effects.instructionsLeaveInputsAlone i _ u hu
  have hframe : u.frameOut = none := hkeeps .frameOut (by simp)
  have hreport : u.handOff.reportOut = u.reportOut := u.handOff_keeps .reportOut (by simp)
  refine ⟨u, _, hu, step_of_exec ht hm hp hg hd hu, u.handOff_keeps, u.handOff_draw,
    hreport.trans (hkeeps .reportOut (by simp)), ?_, ?_, fun hcls hdrw => ?_⟩
  · rintro ⟨ign, rfl⟩
    obtain rfl : _ = u := Host.Outcome.next.inj hu
    rfl
  · rintro ⟨x, y, n, rfl⟩
    exact frameOut_of_drw (s := s.latched inp) hm hdraw rfl hu
  · obtain ⟨-, hflag⟩ := Effects.onlyClsAndDrwChangeDisplay i _ u hcls hdrw hu
    have hclear : u.draw = false := hflag.trans hdraw
    rw [State.handOff_of_clear hclear, hframe]

/-- Settles O48: the byte that RND masks is the one its own tick latched. -/
theorem rndMasksRandomByteOfItsTick : Obligations.RndMasksRandomByteOfItsTick := by
  intro x kk s
  refine ⟨or_append3 0xC x kk, Alu.finish_setV _ x _ s, fun inp ht hm hp hg hd => ?_⟩
  obtain ⟨u, hu, hv, -, -⟩ := Alu.finish_setV (.rnd x kk) x (inp.randIn &&& kk) (s.latched inp)
  have hkeep := u.handOff_keeps .v (by simp)
  exact ⟨_, step_of_exec ht hm hp hg hd hu, (hkeep x).trans ((hv x).trans (if_pos rfl))⟩

end Sys2Proof.Cycle
end

section
/-! Proofs of the family Invariants (10_state.md R24, R34, R44; 60_exceptions.md R276): what every step keeps, from the kinds
of tick and the effects of an instruction. -/

namespace Sys2Proof.Invariants

open Sys2Proof Sys2Proof.Machine

/-! ### The frame of a step -/

/-- The latch writes the keypad snapshot and the random byte only (40_cycle.md R108 step 2). -/
theorem latched_keeps (s : State) (inp : TickInput) : KeepsExcept [.keys, .rand] s.ticked (s.latched inp) := by
  intro c hc
  cases c with
  | keys | rand => simp at hc
  | mem | v => exact fun _ => rfl
  | _ => rfl

/-- The key wait writes a register, PC and the mode only (40_cycle.md R109). -/
theorem keyWait_keeps (s : State) (x : Nibble) (ks : List Nibble) : KeepsExcept [.v, .pc, .mode] s (s.keyWait x ks) := by
  cases ks with
  | nil => exact .refl _ _
  | cons k ks => exact ((Alu.setV_setPc_keeps s x _ _).mono (by simp)).trans ((TimerKey.setMode_keeps _ _).mono (by simp))

/-- What an instruction tick outside Halted can change after the latch. -/
abbrev tickChanges : List Component :=
  [.mem, .v, .i, .pc, .sp, .stack, .dt, .st, .gfx, .draw, .mode, .frameOut, .reportOut, .haltOut]

/-- An instruction tick outside Halted keeps the latched inputs, the parameters and the rest of the schedule. -/
theorem step_instrTick_keeps {s t : State} {inp : TickInput} (ht : s.nextTick.1 = .instr inp)
    (hm : s.mode.isHalted = false) (h : step s = .next t) : KeepsExcept tickChanges (s.latched inp) t := by
  have handOff {u : State} (hu : KeepsExcept tickChanges (s.latched inp) u) :
      KeepsExcept tickChanges (s.latched inp) u.handOff := hu.trans (u.handOff_keeps.mono (by simp))
  have same {inp' : TickInput} (ht' : s.nextTick.1 = .instr inp') : inp' = inp := Tick.instr.inj (ht'.symm.trans ht)
  obtain ⟨hh, -⟩ | ⟨-, htimer, -⟩ | ⟨inp', -, ht', -, rfl⟩ | ⟨inp', x, -, ht', rfl⟩ | ⟨inp', r, -, ht', -, rfl⟩ |
    ⟨inp', i, u, -, ht', -, -, hu, rfl⟩ | ⟨inp', -, ht', -, -, rfl⟩ := step_cases h
  · simp [hm] at hh
  · simp [ht] at htimer
  · obtain rfl := same ht'
    exact handOff ((Effects.enterHalt_keeps _ _ _).mono (by simp))
  · obtain rfl := same ht'.1
    exact handOff ((keyWait_keeps _ _ _).mono (by simp))
  · obtain rfl := same ht'.1
    exact handOff ((Effects.enterHalt_keeps _ _ _).mono (by simp))
  · obtain rfl := same ht'.1
    exact handOff ((Effects.instructionsLeaveInputsAlone i _ u hu).mono (by simp))
  · obtain rfl := same ht'.1
    exact handOff ((Cycle.report_keeps _ _ _).mono (by simp))

/-- A step keeps the parameters, and takes one tick of the schedule. -/
theorem step_keeps {s t : State} (h : step s = .next t) : KeepsExcept (.keys :: .rand :: tickChanges) s.ticked t := by
  cases hm : s.mode.isHalted with
  | true =>
    obtain rfl : _ = t := Host.Outcome.next.inj ((step_halted hm).symm.trans h)
    exact .refl _ _
  | false =>
    cases ht : s.nextTick.1 with
    | timer =>
      obtain rfl : _ = t := Host.Outcome.next.inj ((step_timer ht hm).symm.trans h)
      exact ((TimerKey.setDt_keeps _ _).mono (by simp)).trans ((TimerKey.setSt_keeps _ _).mono (by simp))
    | instr inp =>
      exact ((latched_keeps s inp).mono (by simp)).trans ((step_instrTick_keeps ht hm h).mono (by simp))

/-- Settles O23: the parameters are outside the changes of every step. -/
theorem parametersNeverChange : Obligations.ParametersNeverChange := fun _ _ h => step_keeps h .cfg (by simp)

/-! ### The draw flag -/

/-- Settles O22: a tick ends with the hand-off, or does not touch the flag. -/
theorem drawFlagClearBetweenTicks : Obligations.DrawFlagClearBetweenTicks := by
  intro s t hs h
  obtain ⟨-, rfl⟩ | ⟨-, -, rfl⟩ | ⟨_, -, -, -, rfl⟩ | ⟨_, _, -, -, rfl⟩ | ⟨_, _, -, -, -, rfl⟩ |
    ⟨_, _, _, -, -, -, -, -, rfl⟩ | ⟨_, -, -, -, -, rfl⟩ := step_cases h
  · exact hs
  · exact hs
  all_goals exact State.handOff_draw _

/-! ### The form of memory -/

/-- The hand-off does not touch memory. -/
theorem memOk_handOff {s : State} (h : s.MemOk) : s.handOff.MemOk := by
  rw [State.handOff_eq]
  exact h

/-- A store that may be made keeps the form of memory. -/
theorem memOk_writeBytes {s : State} {bs : List Byte} (hw : s.Writable bs.length) (h : s.MemOk) :
    (s.writeBytes s.i.toNat bs).MemOk := by
  obtain ⟨hnil | hin, -⟩ := hw
  · obtain rfl := List.length_eq_zero_iff.1 hnil
    exact h
  · exact State.writeBytes_memOk bs hin h

/-- Every effect of an instruction keeps the form of memory. -/
theorem memOk_effect {i : Instr} {s t : State} (he : Effects.Effect i s t) (h : s.MemOk) : t.MemOk := by
  cases he with
  | stores bs _ hw => exact memOk_writeBytes hw h
  | calls _ hpush =>
    obtain ⟨-, rfl⟩ := State.push_eq_some.1 hpush
    exact h
  | returns _ hpop =>
    obtain ⟨-, -, rfl⟩ := State.pop_eq_some.1 hpop
    exact h
  | fault | draws | registers | skips | jumps | waits => exact h

/-- Settles O19: only an instruction's store writes memory. -/
theorem memoryFormKeptByEveryStep : Obligations.MemoryFormKeptByEveryStep := by
  intro s t hs h
  obtain ⟨-, rfl⟩ | ⟨-, -, rfl⟩ | ⟨inp, -, -, -, rfl⟩ | ⟨inp, x, -, -, rfl⟩ | ⟨inp, r, -, -, -, rfl⟩ |
    ⟨inp, i, u, -, -, -, -, hu, rfl⟩ | ⟨inp, -, -, -, -, rfl⟩ := step_cases h
  · exact hs
  · exact hs
  · exact memOk_handOff hs
  · refine memOk_handOff ?_
    obtain hwait | ⟨k, hwait⟩ := (s.latched inp).keyWait_cases x inp.keydownIn
    · rw [hwait]
      exact hs
    · rw [hwait]
      exact hs
  · exact memOk_handOff hs
  · exact memOk_handOff (memOk_effect (Effects.effect_of_exec hu) hs)
  · exact memOk_handOff hs

/-! ### The range of PC -/

/-- The hand-off touches neither PC nor the stack nor the mode. -/
theorem pcOk_handOff {s : State} (h : s.PcOk) : s.handOff.PcOk := by
  rw [State.handOff_eq]
  exact h

/-- Outside the key wait the invariant is the two bounds. -/
theorem pcOk_of_not_waiting {s : State} (hpc : s.pc.toNat ≤ 0x1002) (hstack : ∀ k : Fin 16, s.stack[k].toNat ≤ 0x1000)
    (hmode : ∀ x, s.mode ≠ .waitingForKey x) : s.PcOk := ⟨hpc, hstack, fun x hx => absurd hx (hmode x)⟩

/-- An effect on a word that was fetched keeps PC and the stack in range: PC moves by at most 4 from 0xFFE, to a checked
target, to a 12-bit target or to a stack entry. -/
theorem pcOk_effect {i : Instr} {s t : State} (he : Effects.Effect i s t) (h : s.PcOk) (hm : s.mode = .running)
    (hp : s.pc.toNat ≤ 0xFFE) : t.PcOk := by
  obtain ⟨hpc, hstack, -⟩ := h
  have running {u : State} (hu : u.mode = s.mode) (x : Nibble) : u.mode ≠ .waitingForKey x := by simp [hu, hm]
  have htwo : (s.pc + 2).toNat = s.pc.toNat + 2 := by bv_omega
  have hfour : (s.pc + 4).toNat = s.pc.toNat + 4 := by bv_omega
  have hnext : (s.pc + 2).toNat ≤ 0x1002 := by omega
  cases he with
  | fault => exact pcOk_of_not_waiting hpc hstack fun _ => Mode.noConfusion
  | draws | registers => exact pcOk_of_not_waiting hnext hstack (running rfl)
  | stores =>
    rw [State.writeBytes_eq]
    exact pcOk_of_not_waiting hnext hstack (running rfl)
  | skips _ hadv =>
    refine pcOk_of_not_waiting ?_ hstack (running rfl)
    obtain rfl | rfl := hadv
    · exact hnext
    · exact hfour.trans_le (by omega)
  | jumps _ ha =>
    refine pcOk_of_not_waiting ?_ hstack (running rfl)
    exact (BitVec.toNat_ofNat _ _).trans_le (by omega)
  | @calls nnn _ _ hpush =>
    obtain ⟨hlt, rfl⟩ := State.push_eq_some.1 hpush
    refine pcOk_of_not_waiting ?_ (fun k => ?_) (running rfl)
    · have hnnn := nnn.isLt
      exact (BitVec.toNat_setWidth _ _).trans_le (by omega)
    · rw [State.setPc_stack, Flow.stack_set_getElem s.stack (s.pc + 2) ⟨s.sp.val, hlt⟩ k]
      split
      · omega
      · exact hstack k
  | returns _ hpop =>
    obtain ⟨hpos, rfl, rfl⟩ := State.pop_eq_some.1 hpop
    have hentry := hstack ⟨s.sp.val - 1, by omega⟩
    exact pcOk_of_not_waiting (hentry.trans (by omega)) hstack (running rfl)
  | waits => exact ⟨hpc, hstack, fun _ _ => hp⟩

/-- Settles O20: a fetch that passes its check stands at 0xFFE or below, and so does a key wait. -/
theorem pcNeverWrapsInAnyStep : Obligations.PcNeverWrapsInAnyStep := by
  intro s t hs h
  have hs' := hs
  obtain ⟨hpc, hstack, hwaiting⟩ := hs
  obtain ⟨-, rfl⟩ | ⟨-, -, rfl⟩ | ⟨inp, -, -, -, rfl⟩ | ⟨inp, x, hm, -, rfl⟩ | ⟨inp, r, -, -, -, rfl⟩ |
    ⟨inp, i, u, hm, -, hf, -, hu, rfl⟩ | ⟨inp, hm, -, hf, -, rfl⟩ := step_cases h
  · exact hs'
  · exact hs'
  · exact pcOk_handOff (pcOk_of_not_waiting hpc hstack fun _ => Mode.noConfusion)
  · refine pcOk_handOff ?_
    have hp := hwaiting x hm
    obtain hwait | ⟨k, hwait⟩ := (s.latched inp).keyWait_cases x inp.keydownIn
    · rw [hwait]
      exact hs'
    · rw [hwait]
      have hnext : (s.pc + 2).toNat ≤ 0x1002 := by bv_omega
      exact pcOk_of_not_waiting hnext hstack fun _ => Mode.noConfusion
  · exact pcOk_handOff (pcOk_of_not_waiting hpc hstack fun _ => Mode.noConfusion)
  · exact pcOk_handOff (pcOk_effect (Effects.effect_of_exec hu) hs' hm (fetchCheck_eq_none.1 hf).1)
  · have hp := (fetchCheck_eq_none.1 hf).1
    have hnext : (s.pc + 2).toNat ≤ 0x1002 := by bv_omega
    exact pcOk_handOff (pcOk_of_not_waiting hnext hstack fun x => by simp [hm])

/-! ### The diagnostic -/

/-- A step that halts is fault entry from the latched state, and the hand-off. -/
theorem step_halts {s t : State} {d : Diag} (hs : s.mode.isHalted = false) (h : step s = .next t)
    (hd : t.mode = .halted d) : ∃ inp r op, t = ((s.latched inp).enterHalt r op).handOff := by
  have handOff_mode (u : State) : u.handOff.mode = u.mode := u.handOff_keeps .mode (by simp)
  obtain ⟨hh, -⟩ | ⟨-, -, rfl⟩ | ⟨inp, -, -, -, rfl⟩ | ⟨inp, x, hm, -, rfl⟩ | ⟨inp, r, -, -, -, rfl⟩ |
    ⟨inp, i, u, hm, -, -, -, hu, rfl⟩ | ⟨inp, hm, -, -, -, rfl⟩ := step_cases h
  · simp [hs] at hh
  · exact absurd hd (Effects.mode_ne_halted hs)
  · exact ⟨inp, _, _, rfl⟩
  · rw [handOff_mode] at hd
    obtain hwait | ⟨k, hwait⟩ := (s.latched inp).keyWait_cases x inp.keydownIn
    · rw [hwait] at hd
      exact absurd hd (Effects.mode_ne_halted (s := s.latched inp) hs)
    · rw [hwait] at hd
      cases hd
  · exact ⟨inp, _, _, rfl⟩
  · rw [handOff_mode] at hd
    obtain ⟨r, -, rfl, -⟩ := (Effects.effect_of_exec hu).halts (s := s.latched inp) hs hd
    exact ⟨inp, _, _, rfl⟩
  · rw [handOff_mode] at hd
    exact absurd hd (Effects.mode_ne_halted (s := s) hs)

/-- A step that halts emits its diagnostic, which captures the state before it and the state after it. -/
theorem step_halts_captures {s t : State} {d : Diag} (hs : s.mode.isHalted = false) (h : step s = .next t)
    (hd : t.mode = .halted d) : t.haltOut = some d ∧ d.Captures s ∧ d.Captures t := by
  obtain ⟨inp, r, op, rfl⟩ := step_halts hs h hd
  rw [State.handOff_eq] at hd ⊢
  obtain rfl : (s.latched inp).diag r op = d := Mode.halted.inj hd
  exact ⟨rfl, (s.latched inp).diag_captures r op, (s.latched inp).diag_captures r op⟩

/-- Settles O21: a tick in Halted changes nothing that a diagnostic captures. -/
theorem diagnosticMatchesHaltedState : Obligations.DiagnosticMatchesHaltedState := by
  refine ⟨fun s t hs h d hd => ?_, fun s t d hs h hd => ?_⟩
  · cases hm : s.mode.isHalted with
    | true =>
      obtain rfl : _ = t := Host.Outcome.next.inj ((step_halted hm).symm.trans h)
      exact hs d hd
    | false =>
      obtain ⟨-, -, hcaptures⟩ := step_halts_captures hm h hd
      exact hcaptures
  · obtain ⟨hout, hcaptures, -⟩ := step_halts_captures hs h hd
    exact ⟨hout, hcaptures⟩

end Sys2Proof.Invariants
end

section
/-! Proofs of the family Schedule (60_exceptions.md R286, decision D18): the reference schedule, the weakly fair schedules as
the free ones, what a step takes of its schedule, and a key wait through a schedule. -/

namespace Sys2Proof.Schedule

open Sys2Proof Sys2Proof.Machine

/-! ### The reference schedule -/

/-- The timer ticks of two schedules in a row. -/
theorem timerCount_append (ts us : List Tick) : timerCount (ts ++ us) = timerCount ts + timerCount us :=
  List.countP_append

/-- Before the n-th instruction tick the reference schedule is the instruction ticks alone. -/
theorem referenceFrom_of_lt {n c : Nat} {ins : List TickInput} (h : c + ins.length < n) :
    referenceFrom n c ins = ins.map Tick.instr := by
  induction ins generalizing c with
  | nil => rfl
  | cons inp ins ih =>
    rw [List.length_cons] at h
    rw [referenceFrom, if_neg (by omega), ih (by omega), List.map_cons]

/-- After the n-th instruction tick stands one timer tick, and the count starts again. -/
theorem referenceFrom_append {n c : Nat} {a : List TickInput} (b : List TickInput) (hc : c < n) (h : c + a.length = n) :
    referenceFrom n c (a ++ b) = a.map Tick.instr ++ Tick.timer :: referenceFrom n 0 b := by
  induction a generalizing c with
  | nil =>
    rw [List.length_nil] at h
    omega
  | cons inp a ih =>
    rw [List.length_cons] at h
    rw [List.cons_append, referenceFrom, List.map_cons, List.cons_append]
    split
    · next hlast =>
      obtain rfl := List.length_eq_zero_iff.1 (show a.length = 0 by omega)
      rfl
    · next hmore => rw [ih (by omega) (by omega)]

/-- The reference schedule holds one timer tick for every n instruction ticks counted. -/
theorem timerCount_referenceFrom {n c : Nat} (ins : List TickInput) (hc : c < n) :
    timerCount (referenceFrom n c ins) = (c + ins.length) / n := by
  have instr_cons (inp : TickInput) (ts : List Tick) : timerCount (.instr inp :: ts) = timerCount ts := by simp [timerCount]
  have timer_cons (ts : List Tick) : timerCount (.timer :: ts) = timerCount ts + 1 := by simp [timerCount]
  induction ins generalizing c with
  | nil => exact (Nat.div_eq_of_lt hc).symm
  | cons inp ins ih =>
    rw [referenceFrom, List.length_cons]
    split
    · next hlast =>
      have hsum : c + (ins.length + 1) = 0 + ins.length + n := by omega
      rw [instr_cons, timer_cons, ih (by omega), hsum, Nat.add_div_right _ (by omega)]
    · next hmore =>
      have hsum : c + (ins.length + 1) = c + 1 + ins.length := by omega
      rw [instr_cons, ih (by omega), hsum]

/-- The reference schedule keeps the instruction ticks in order. -/
theorem instrInputs_referenceFrom (n c : Nat) (ins : List TickInput) : instrInputs (referenceFrom n c ins) = ins := by
  induction ins generalizing c with
  | nil => rfl
  | cons inp ins ih =>
    rw [referenceFrom]
    split
    · rw [instrInputs, instrInputs, ih]
    · rw [instrInputs, ih]

/-! ### The weakly fair schedules -/

/-- The fixed ticks alone make a schedule weakly fair. -/
theorem weaklyFair_fairTick (gap : Nat → Nat) (raw : Nat → Tick) (inp : Nat → TickInput) :
    WeaklyFair (fairTick gap raw inp) := by
  intro k
  have heven := fairTick_fixed gap raw inp (2 * k)
  have hodd := fairTick_fixed gap raw inp (2 * k + 1)
  rw [if_pos (by omega)] at heven
  rw [if_neg (by omega)] at hodd
  have hle := le_fixedAt gap (2 * k)
  have hle' := le_fixedAt gap (2 * k + 1)
  exact ⟨⟨_, by omega, heven⟩, _, _, by omega, hodd⟩

/-- The k-th fixed tick of a schedule has its kind: a timer tick and an instruction tick by turns. -/
def TurnOf (k : Nat) (t : Tick) : Prop := if k % 2 = 0 then t = .timer else ∃ inp, t = .instr inp

/-- In a weakly fair schedule a rising sequence of places has the two kinds of tick by turns. -/
theorem exists_turns {f : Nat → Tick} (hf : WeaklyFair f) :
    ∃ place : Nat → Nat, StrictMono place ∧ ∀ k, TurnOf k (f (place k)) := by
  refine Filter.extraction_forall_of_frequently (P := fun k j => TurnOf k (f j)) fun k =>
    Filter.frequently_atTop.2 fun start => ?_
  obtain ⟨⟨j, hj, htimer⟩, j', inp, hj', hinstr⟩ := hf start
  unfold TurnOf
  split
  · exact ⟨j, hj, htimer⟩
  · exact ⟨j', hj', inp, hinstr⟩

/-- The gaps between the places of a rising sequence. -/
def gapOf (place : Nat → Nat) : Nat → Nat
  | 0 => place 0
  | k + 1 => place (k + 1) - place k - 1

/-- The fixed places with the gaps of a rising sequence are that sequence. -/
theorem fixedAt_gapOf {place : Nat → Nat} (h : StrictMono place) (k : Nat) : fixedAt (gapOf place) k = place k := by
  induction k with
  | zero => rfl
  | succ k ih =>
    have hlt := h (Nat.lt_add_one k)
    rw [fixedAt, ih, gapOf]
    omega

/-- The inputs of an instruction tick; a timer tick has none, and any stand for them. -/
def inputOf : Tick → TickInput
  | .instr inp => inp
  | .timer => default

/-- Every weakly fair schedule is a free one: fixed where its two kinds of tick stand by turns, and unfixed elsewhere. -/
theorem exists_fairTick_eq {f : Nat → Tick} (hf : WeaklyFair f) : ∃ gap raw inp, ∀ k, fairTick gap raw inp k = f k := by
  obtain ⟨place, hmono, hturn⟩ := exists_turns hf
  refine ⟨gapOf place, f, fun n => inputOf (f n), fun n => ?_⟩
  by_cases h : ∃ k, fixedAt (gapOf place) k = n
  · obtain ⟨k, rfl⟩ := h
    have hk := hturn k
    rw [fairTick_fixed, fixedAt_gapOf hmono]
    unfold TurnOf at hk
    split at hk
    · next heven => rw [if_pos heven, hk]
    · next hodd =>
      obtain ⟨inp, hinstr⟩ := hk
      rw [if_neg hodd, hinstr, inputOf]
  · exact fairTick_other _ _ _ _ (not_exists.1 h)

/-- Settles O60: the reference schedule by its count of instruction ticks, the free schedules by their fixed ticks. -/
theorem referenceScheduleHasOneTimerTickPerN : Obligations.ReferenceScheduleHasOneTimerTickPerN := by
  refine ⟨fun n ins hn => ⟨fun h => referenceFrom_of_lt (by omega), ?_, ?_, instrInputs_referenceFrom n 0 ins⟩,
    weaklyFair_fairTick, fun _ hf => exists_fairTick_eq hf⟩
  · rintro a b rfl ha
    exact referenceFrom_append b hn (by omega)
  · exact (timerCount_referenceFrom ins hn).trans (by rw [Nat.zero_add])

/-! ### The schedule of a run -/

/-- A schedule that from some place on is the rest of a weakly fair one is weakly fair. -/
theorem WeaklyFair.of_shift {f g : Nat → Tick} {m n : Nat} (hf : WeaklyFair f) (h : ∀ j, g (n + j) = f (m + j)) :
    WeaklyFair g := by
  intro k
  have shift {j : Nat} (hj : m + k ≤ j) : g (n + (j - m)) = f j := by rw [h, Nat.add_sub_cancel' (by omega)]
  obtain ⟨⟨j, hj, htimer⟩, j', inp, hj', hinstr⟩ := hf (m + k)
  exact ⟨⟨n + (j - m), by omega, (shift hj).trans htimer⟩, n + (j' - m), inp, by omega, (shift hj').trans hinstr⟩

/-- The schedule of every state is admitted: after its list stands the rest of the free schedule. -/
theorem weaklyFair_schedule (s : State) : WeaklyFair s.schedule := by
  have hfree : WeaklyFair freeSchedule := weaklyFair_fairTick _ _ _
  refine WeaklyFair.of_shift (m := s.drawn) (n := s.ticks.length) hfree fun j => ?_
  rw [State.schedule, List.getD_eq_default _ _ (Nat.le_add_right _ _), Nat.add_sub_cancel_left]

/-- Fetch, decode and execute always answer a next state. -/
theorem fetchAndExecute_answers (s : State) : ∃ t, s.fetchAndExecute = .next t := by
  unfold State.fetchAndExecute
  split
  · exact ⟨_, rfl⟩
  · split
    · exact exec_answers _ s
    · exact ⟨_, rfl⟩

/-- A step always answers a next state. -/
theorem step_answers (s : State) : ∃ t, step s = .next t := by
  cases hm : s.mode.isHalted with
  | true => exact ⟨_, step_halted hm⟩
  | false =>
    cases ht : s.nextTick.1 with
    | timer => exact ⟨_, step_timer ht hm⟩
    | instr inp =>
      cases hq : inp.quitIn with
      | true => exact ⟨_, step_quit ht hq hm⟩
      | false =>
        cases hmode : s.mode with
        | halted d => simp [hmode, Mode.isHalted] at hm
        | waitingForKey x => exact ⟨_, step_waiting ⟨ht, hq⟩ hmode⟩
        | running =>
          obtain ⟨t, hnext⟩ := fetchAndExecute_answers (s.latched inp)
          exact ⟨t.handOff, by rw [step_running ⟨ht, hq⟩ hmode, hnext]; rfl⟩

/-- Settles O14: the state after the step has the rest of the schedule. -/
theorem everyStepAnswers : Obligations.EveryStepAnswers := by
  intro s
  obtain ⟨t, h⟩ := step_answers s
  have hkeeps := Invariants.step_keeps h
  have hschedule : t.schedule = s.ticked.schedule :=
    State.schedule_congr (hkeeps .ticks (by simp)) (hkeeps .drawn (by simp))
  exact ⟨s.nextTick_schedule, weaklyFair_schedule s, t, h, fun k => by rw [hschedule, State.ticked_schedule]⟩

/-! ### A key wait through a schedule -/

/-- A tick that does not end a key wait: a timer tick, or an instruction tick without an event and a quit. -/
def Quiet (t : Tick) : Prop := ∀ inp, t = .instr inp → inp.keydownIn = [] ∧ inp.quitIn = false

/-- What a quiet tick can change in a key wait. -/
abbrev waitChanges : List Component := [.dt, .st, .keys, .rand, .ticks, .frameOut, .reportOut, .haltOut]

/-- Taking a tick of the list keeps the count of free ticks too. -/
theorem ticked_keeps_of_cons {s : State} {tick : Tick} {rest : List Tick} (h : s.ticks = tick :: rest) :
    KeepsExcept [.ticks, .frameOut, .reportOut, .haltOut] s s.ticked := by
  intro c hc
  cases c with
  | ticks | frameOut | reportOut | haltOut => simp at hc
  | drawn => simp [Component.Agrees, State.ticked, h]
  | mem | v => exact fun _ => rfl
  | _ => rfl

/-- One quiet tick of a key wait: the timers fall if it is a timer tick, and the inputs are latched if it is not. -/
theorem step_quiet {s : State} {x : Nibble} {tick : Tick} {rest : List Tick} (hm : s.mode = .waitingForKey x)
    (hdraw : s.DrawOk) (hticks : s.ticks = tick :: rest) (hquiet : Quiet tick) :
    ∃ t, step s = .next t ∧ t.ticks = rest ∧ t.dt.toNat = s.dt.toNat - timerCount [tick] ∧
      t.st.toNat = s.st.toNat - timerCount [tick] ∧ KeepsExcept waitChanges s t := by
  have hnext : s.nextTick.1 = tick := by rw [State.nextTick_cons hticks]
  have hrest : s.ticked.ticks = rest := by rw [State.ticked_cons hticks]
  have hkeeps := ticked_keeps_of_cons hticks
  cases tick with
  | timer =>
    exact ⟨_, step_timer hnext (by rw [hm]; rfl), hrest, Cycle.countDown_toNat _, Cycle.countDown_toNat _,
      (hkeeps.mono (by simp)).trans
        (((TimerKey.setDt_keeps _ _).mono (by simp)).trans ((TimerKey.setSt_keeps _ _).mono (by simp)))⟩
  | instr inp =>
    obtain ⟨hkeys, hquit⟩ := hquiet inp rfl
    have hstep := Cycle.step_keyWait ⟨hnext, hquit⟩ hm hdraw
    rw [hkeys] at hstep
    exact ⟨_, hstep, hrest, rfl, rfl, (hkeeps.mono (by simp)).trans ((Invariants.latched_keeps s inp).mono (by simp))⟩

/-- A key wait through a list of quiet ticks. -/
theorem run_quiet {ts more : List Tick} {s : State} {x : Nibble} (hm : s.mode = .waitingForKey x) (hdraw : s.DrawOk)
    (hticks : s.ticks = ts ++ more) (hquiet : ∀ tick ∈ ts, Quiet tick) :
    ∃ t : State, Host.Core.run Sys2Proof.core ts.length s = .next t ∧ t.ticks = more ∧
      t.dt.toNat = s.dt.toNat - timerCount ts ∧ t.st.toNat = s.st.toNat - timerCount ts ∧ KeepsExcept waitChanges s t := by
  induction ts generalizing s with
  | nil => exact ⟨s, rfl, hticks, rfl, rfl, .refl _ _⟩
  | cons tick ts ih =>
    obtain ⟨hfirst, hothers⟩ := List.forall_mem_cons.1 hquiet
    obtain ⟨u, hstep, hrest, hdt, hst, hkeeps⟩ := step_quiet hm hdraw hticks hfirst
    have hmu : u.mode = s.mode := hkeeps .mode (by simp)
    have hdu : u.draw = s.draw := hkeeps .draw (by simp)
    obtain ⟨t, hrun, hmore, hdt', hst', hkeeps'⟩ := ih (hmu.trans hm) (hdu.trans hdraw) hrest hothers
    have hcount : timerCount (tick :: ts) = timerCount [tick] + timerCount ts := timerCount_append [tick] ts
    exact ⟨t, (core_run_succ ts.length hstep).trans hrun, hmore, by omega, by omega, hkeeps.trans hkeeps'⟩

/-- The first ticks of a weakly fair schedule hold as many timer ticks as one likes. -/
theorem exists_timerCount_ge {f : Nat → Tick} (hf : WeaklyFair f) (n : Nat) :
    ∃ k, n ≤ timerCount ((List.range k).map f) := by
  induction n with
  | zero => exact ⟨0, Nat.zero_le _⟩
  | succ n ih =>
    obtain ⟨k, hk⟩ := ih
    obtain ⟨⟨j, hj, htimer⟩, -⟩ := hf k
    have hmono : timerCount ((List.range k).map f) ≤ timerCount ((List.range j).map f) :=
      ((List.range_sublist.2 hj).map f).countP_le
    have hlast : timerCount [f j] = 1 := by rw [htimer]; rfl
    refine ⟨j + 1, ?_⟩
    rw [List.range_succ, List.map_append, timerCount_append, List.map_singleton]
    omega

/-- Settles O59: 255 timer ticks bring any timer to 0. -/
theorem waitingOnlyTimersFall : Obligations.WaitingOnlyTimersFall := by
  refine ⟨fun ts more s x hm hdraw hticks hquiet => ?_, fun f hf hquiet => ?_⟩
  · exact run_quiet hm hdraw hticks fun tick htick inp hinp => hquiet inp (hinp ▸ htick)
  · obtain ⟨k, hk⟩ := exists_timerCount_ge hf 255
    refine ⟨k, fun s x more hm hdraw hticks => ?_⟩
    have hall : ∀ tick ∈ (List.range k).map f, Quiet tick := by
      intro tick htick
      obtain ⟨j, -, rfl⟩ := List.mem_map.1 htick
      exact hquiet j
    obtain ⟨t, hrun, -, hdt, hst, hkeeps⟩ := run_quiet hm hdraw hticks hall
    rw [List.length_map, List.length_range] at hrun
    have hmode : t.mode = s.mode := hkeeps .mode (by simp)
    have zero {b : Byte} (hb : b.toNat = 0) : b = 0 := BitVec.eq_of_toNat_eq hb
    have hdtLt := s.dt.isLt
    have hstLt := s.st.isLt
    exact ⟨t, hrun, hmode.trans hm, zero (by omega), zero (by omega)⟩

end Sys2Proof.Schedule
end

section
/-! Proofs of the family Skip, continued (43_skip.md R168 to R170): SKP and SKNP, and the snapshot that they test. -/

namespace Sys2Proof.Skip

open Sys2Proof Sys2Proof.Machine

/-- The hand-off keeps PC. -/
theorem handOff_pc (s : State) : s.handOff.pc = s.pc := s.handOff_keeps .pc (by simp)

/-- Settles O42: a key skip tests the latched state, whose snapshot is the tick's own. -/
theorem skipsOnKey : Obligations.SkipsOnKey := by
  intro x s
  refine ⟨or_appendX 0xE x 0x9E, or_appendX 0xE x 0xA1, fun hle => ?_, fun hgt => ?_, fun inp ht hm hp hg hle => ?_,
    fun inp ht hm => ?_⟩
  · exact ⟨⟨_, exec_skp_of_le hle, rfl, Flow.setPc_keeps s _⟩, ⟨_, exec_sknp_of_le hle, rfl, Flow.setPc_keeps s _⟩⟩
  · exact ⟨⟨_, exec_skp_of_gt hgt, s.enterHalt_spec _ _⟩, ⟨_, exec_sknp_of_gt hgt, s.enterHalt_spec _ _⟩⟩
  · have hle' : ((s.latched inp).getV x).toNat ≤ 0xF := hle
    exact ⟨fun hd => ⟨_, Cycle.step_of_exec ht hm hp hg hd (exec_skp_of_le hle'), handOff_pc _⟩,
      fun hd => ⟨_, Cycle.step_of_exec ht hm hp hg hd (exec_sknp_of_le hle'), handOff_pc _⟩⟩
  · obtain ⟨t, h⟩ := Schedule.step_answers s
    exact ⟨t, h, Invariants.step_instrTick_keeps ht hm h .keys (by simp)⟩

end Sys2Proof.Skip
end
